-- ==== Sys2Proof/Word.lean ====
section
/-! DEFINITION. The word and byte types (00_scope.md rules R6, R8). -/

namespace Sys2Proof

/-- A register, a memory word, an instruction word or the program counter: 32 bits, unsigned (R6 `WORD`, R8). -/
abbrev Word := BitVec 32

/-- A console byte or a byte of the program image (45_io.md R203, R204; 20_memory.md R64). -/
abbrev Byte := BitVec 8

end Sys2Proof
end

