-- ==== Sys2Proof/Machine/Types.lean ====
section
/-! DEFINITION. The data types State is made of: segments, the segment manager's memory, run state, fault causes,
the host's answers (10_state.md rule R20). -/

namespace Sys2Proof.Machine

/-- The register file: exactly 8 words, no aliases, none hard-wired (10_state.md R21). -/
abbrev RegFile := Vector Word 8

/-- A live segment: a fixed number of 32-bit words (10_state.md R35, R36).
`cells` lists, by strictly rising offset, the words that are not zero; every unlisted word below `length` reads as
0x00000000, which is the zero fill of 20_memory.md R57 (DESIGN CHOICE of representation, safe, log entry 1). -/
structure Segment where
  length : Nat
  cells  : List (Nat × Word)
deriving DecidableEq, Repr

/-- An entry of the segment table: a live segment or a tombstone (10_state.md R20, R37). -/
inductive Slot where
  | seg (g : Segment)
  | tomb
deriving DecidableEq, Repr

/-- All that the Segment Manager holds (10_state.md R20): the segment table, indexed by segment id, and the free-id
stack, top first. -/
structure Memory where
  segs : List Slot
  free : List Nat
deriving DecidableEq, Repr

/-- The run state (10_state.md R31). -/
inductive RunState where
  | running
  | halted
  | aborted
deriving DecidableEq, Repr

/-- The seven fault causes (60_exceptions.md R211; that these conditions are faults is log entry 14). -/
inductive Cause where
  | illegalOpcode
  | divideByZero
  | fetchFault
  | segmentIdFault
  | offsetFault
  | unmapFault
  | resourceFault
deriving DecidableEq, Repr

/-- The host's answer to an Input request: one byte, or end-of-stream (45_io.md R204). -/
inductive Answer where
  | byte (b : Byte)
  | eos
deriving DecidableEq, Repr

/-- What a run lets the outside see (40_execution_cycle.md R130): the bytes emitted, in order; the Input requests made, in
order, each with the answer taken and `none` for a request whose answer has not been taken; `run`, and `cause` when aborted. -/
structure Observation where
  output   : List Byte
  requests : List (Option Answer)
  run      : RunState
  cause    : Option Cause
deriving DecidableEq, Repr

/-- The input environment (00_scope.md R7, 45_io.md R204, R205): the answers the host gives, in order, and what it
answers to every request after those. `thereafter = some .eos` is the standard host of R204; `thereafter = none` is a
host that has not answered yet, so that IN waits (DESIGN CHOICE of form, log entry 5). -/
structure InputEnv where
  answers    : List Answer
  thereafter : Option Answer
deriving DecidableEq, Repr

end Sys2Proof.Machine
end

