-- ==== Sys2Proof/Config.lean ====
section
/-! DEFINITION. The parameters of 00_scope.md rules R6 and R7: constants the spec fixes, and what it leaves open. -/

namespace Sys2Proof

/-- `MAX_IMAGE_WORDS`, the greatest length of a program image and of any segment (R7, 10_state.md R36; log entry 16). -/
def maxImageWords : Nat := 2 ^ 32 - 1

/-- `EOS_VALUE`, what Input writes at end-of-stream (R6). -/
def eosValue : Word := 0xFFFFFFFF#32

/-- `OUT_MAX`, the greatest register value that Output emits (R6). -/
def outMax : Word := 255#32

/-- The parameter `AllocOK(S, n)` (R7, 20_memory.md R61), as plain data so that a state can be compared and run.
`unbounded` is its default, `capacity` the bounded instance R61 suggests, `oracle` whatever else an implementation
does, about which nothing can be proved (DESIGN CHOICE of form, log entry 3). -/
inductive AllocPolicy where
  | unbounded
  | capacity (maxWords : Nat)
  | oracle
deriving DecidableEq, Repr

/-- The open parameters of R7 that the core's steps depend on. They are arguments of the model: every statement holds
for every value, and no step changes them. -/
structure Config where
  /-- `MAX_IDS` (log entry 4). -/
  maxIds : Nat
  /-- `AllocOK` (log entry 3). -/
  alloc  : AllocPolicy
deriving DecidableEq, Repr

/-- R7: `1 ≤ MAX_IDS ≤ 2^32`. -/
def Config.wf (c : Config) : Bool := decide (1 ≤ c.maxIds ∧ c.maxIds ≤ 2 ^ 32)

/-- The defaults of R7: `MAX_IDS = 2^32`, `AllocOK` always true. -/
def Config.default : Config := { maxIds := 2 ^ 32, alloc := .unbounded }

/-- FREE VALUE (log entry 3). The implementation's own `AllocOK`, a function of the state of 10_state.md R20
(registers, `pc`, `run`, `cause`, segments and free-id stack) and of the requested size only (20_memory.md R61). -/
opaque Config.allocOracle :
  Machine.RegFile → Word → Machine.RunState → Option Machine.Cause → Machine.Memory → Nat → Bool

/-- FREE VALUE (log entry 13). `ABORT_STATUS` is this number plus one, so that it is "any non-zero exit status" (R7). -/
opaque Config.abortStatusCode : Nat

/-- `ABORT_STATUS` (R7): the exit status of a run that aborts, non-zero, given by the host. -/
def Config.abortStatus : Nat := Config.abortStatusCode + 1

end Sys2Proof
end

