-- ==== Sys2Proof/Syntax.lean ====
section
/-! DEFINITION. The instruction set's syntax: one constructor per row of spec/opcode_table.json (30_encoding.md rule
R96), operands in field order, only the fields the instruction uses (R102). -/

namespace Sys2Proof

/-- A register index, 0 to 7. A decoded index is always in range (10_state.md R23), so the bound is in the type. -/
abbrev Reg := Fin 8

/-- The 14 instructions. -/
inductive Instr where
  | cmov (a b c : Reg)                  -- opcode 0
  | sload (a b c : Reg)                 -- opcode 1
  | sstore (a b c : Reg)                -- opcode 2
  | add (a b c : Reg)                   -- opcode 3
  | mul (a b c : Reg)                   -- opcode 4
  | div (a b c : Reg)                   -- opcode 5
  | nand (a b c : Reg)                  -- opcode 6
  | halt                                -- opcode 7
  | map (b c : Reg)                     -- opcode 8
  | unmap (c : Reg)                     -- opcode 9
  | out (c : Reg)                       -- opcode 10
  | inp (c : Reg)                       -- opcode 11
  | loadprog (b c : Reg)                -- opcode 12
  | loadi (a : Reg) (imm : BitVec 25)   -- opcode 13
deriving DecidableEq, Repr

end Sys2Proof
end

