-- ==== Sys2Proof/WellFormed.lean ====
section
/-! DEFINITION. Well-formedness checks. An instruction's operands carry their bounds in their types (`Fin 8`,
`BitVec 25`), so every `Instr` is a well-formed one (10_state.md R23, 30_encoding.md R94): the checks that remain are
on assembler operands before they become an `Instr` (R102) and on the program image (20_memory.md R64,
70_reset_and_hazards.md R252). -/

namespace Sys2Proof

/-- A register number as an assembler reads it: `r0` to `r7` (30_encoding.md R102). -/
def regInRange (n : Nat) : Bool := decide (n < 8)

/-- An immediate as an assembler reads it: 0 to 0x1FFFFFF (30_encoding.md R102, R94). -/
def immInRange (n : Nat) : Bool := decide (n ≤ 0x1FFFFFF)

/-- The register of a well-formed register number. -/
def reg? (n : Nat) : Option Reg := if h : n < 8 then some ⟨n, h⟩ else none

/-- The 25-bit field of a well-formed immediate. -/
def imm? (n : Nat) : Option (BitVec 25) := if immInRange n then some (BitVec.ofNat 25 n) else none

/-- A program image as bytes: its length is a multiple of 4 (20_memory.md R64), and it has at most
`MAX_IMAGE_WORDS` words (70_reset_and_hazards.md R252). -/
def imageWellFormed (bytes : List Byte) : Bool :=
  decide (bytes.length % 4 = 0) && decide (bytes.length / 4 ≤ maxImageWords)

end Sys2Proof
end

