-- ==== Sys2Proof/Decode.lean ====
section
/-! DEFINITION. The Word Decoder (30_encoding.md section 1), the encoder written from the same layouts, and the
byte-to-word rule of the program image (20_memory.md R64). -/

namespace Sys2Proof

/-- Why bytes or a word are no instruction. -/
inductive DecodeError where
  | illegalOpcode (op : BitVec 4)   -- opcode 14 or 15 (30_encoding.md R97)
  | truncated                       -- fewer than four bytes are left (30_encoding.md R90)
deriving DecidableEq, Repr

/-! ## The decoder's total functions (R93) -/

/-- `opcode(w) = w[31:28]`. -/
def opcode (w : Word) : BitVec 4 := w.extractLsb 31 28

/-- A 3-bit operand field as a register index (10_state.md R23). -/
def regOf (f : BitVec 3) : Reg := f.toFin

/-- Operand A of the standard layout, `w[8:6]` (R91). -/
def fieldA (w : Word) : Reg := regOf (w.extractLsb 8 6)

/-- Operand B of the standard layout, `w[5:3]` (R91). -/
def fieldB (w : Word) : Reg := regOf (w.extractLsb 5 3)

/-- Operand C of the standard layout, `w[2:0]` (R91). -/
def fieldC (w : Word) : Reg := regOf (w.extractLsb 2 0)

/-- Operand A of the immediate layout, `w[27:25]` (R92). -/
def immA (w : Word) : Reg := regOf (w.extractLsb 27 25)

/-- The immediate, `w[24:0]` (R92). -/
def immField (w : Word) : BitVec 25 := w.extractLsb 24 0

/-- Decoding of any 32-bit word (R96): the opcode field alone selects the instruction, ignored bits are read by
nothing (R98; log entry 15), opcodes 14 and 15 are rejected by name (R97). -/
def decode (w : Word) : Except DecodeError Instr :=
  match (opcode w).toNat with
  | 0 => .ok (.cmov (fieldA w) (fieldB w) (fieldC w))
  | 1 => .ok (.sload (fieldA w) (fieldB w) (fieldC w))
  | 2 => .ok (.sstore (fieldA w) (fieldB w) (fieldC w))
  | 3 => .ok (.add (fieldA w) (fieldB w) (fieldC w))
  | 4 => .ok (.mul (fieldA w) (fieldB w) (fieldC w))
  | 5 => .ok (.div (fieldA w) (fieldB w) (fieldC w))
  | 6 => .ok (.nand (fieldA w) (fieldB w) (fieldC w))
  | 7 => .ok .halt
  | 8 => .ok (.map (fieldB w) (fieldC w))
  | 9 => .ok (.unmap (fieldC w))
  | 10 => .ok (.out (fieldC w))
  | 11 => .ok (.inp (fieldC w))
  | 12 => .ok (.loadprog (fieldB w) (fieldC w))
  | 13 => .ok (.loadi (immA w) (immField w))
  | _ => .error (.illegalOpcode (opcode w))

/-! ## The encoder -/

/-- The opcode number of an instruction (R96). -/
def Instr.opcode : Instr → BitVec 4
  | .cmov .. => 0#4
  | .sload .. => 1#4
  | .sstore .. => 2#4
  | .add .. => 3#4
  | .mul .. => 4#4
  | .div .. => 5#4
  | .nand .. => 6#4
  | .halt => 7#4
  | .map .. => 8#4
  | .unmap _ => 9#4
  | .out _ => 10#4
  | .inp _ => 11#4
  | .loadprog .. => 12#4
  | .loadi .. => 13#4

/-- The 3-bit field of a register index. -/
def regBits (r : Reg) : BitVec 3 := BitVec.ofNat 3 r.val

/-- The canonical standard word: unused bits 0 (R91, R99). -/
def standardWord (op : BitVec 4) (a b c : Reg) : Word :=
  op ++ 0#19 ++ regBits a ++ regBits b ++ regBits c

/-- The word of the immediate layout (R92). -/
def immediateWord (op : BitVec 4) (a : Reg) (imm : BitVec 25) : Word :=
  op ++ regBits a ++ imm

/-- The canonical encoding: every ignored bit and every field an instruction does not name is zero (R99). -/
def encode (i : Instr) : Word :=
  match i with
  | .cmov a b c | .sload a b c | .sstore a b c | .add a b c | .mul a b c | .div a b c | .nand a b c =>
    standardWord i.opcode a b c
  | .halt => standardWord i.opcode 0 0 0
  | .map b c | .loadprog b c => standardWord i.opcode 0 b c
  | .unmap c | .out c | .inp c => standardWord i.opcode 0 0 c
  | .loadi a imm => immediateWord i.opcode a imm

/-! ## Bytes and words (20_memory.md R64) -/

/-- Four image bytes as a word, the first byte most significant (R64). -/
def wordOfBytes (b0 b1 b2 b3 : Byte) : Word := b0 ++ b1 ++ b2 ++ b3

/-- The instruction in the first four bytes of a program image, and the bytes after it. -/
def decodeBytes : List Byte → Except DecodeError (Instr × List Byte)
  | b0 :: b1 :: b2 :: b3 :: rest => (decode (wordOfBytes b0 b1 b2 b3)).map fun i => (i, rest)
  | _ => .error .truncated

/-- The words of image bytes, or nothing where a last word is cut short. -/
def wordsOfBytes : List Byte → Option (List Word)
  | [] => some []
  | b0 :: b1 :: b2 :: b3 :: rest => (wordsOfBytes rest).map (wordOfBytes b0 b1 b2 b3 :: ·)
  | _ => none

/-- The image's words; a malformed image has none, and the core is never started (R64, 60_exceptions.md R225). -/
def imageWords (bytes : List Byte) : Option (List Word) :=
  if imageWellFormed bytes then wordsOfBytes bytes else none

/-! ## The opcode table's numbering -/

/-- The instruction word whose bits are `w`, of which the table gives `nbits`; every bit above is 0. The table's bit 0
is the word's least significant bit, and every instruction is one word (R90). -/
def tableWord (nbits w : Nat) : Word := BitVec.ofNat 32 (w % 2 ^ nbits)

/-- The instruction the decoder reads from a word numbered as spec/opcode_table.json numbers it. -/
def decodeTableWord (nbits w : Nat) : Option Instr := (decode (tableWord nbits w)).toOption

end Sys2Proof
end

