-- ==== Sys2Proof/Machine/State.lean ====
section
/-! DEFINITION. The machine's state (10_state.md rule R20), the reasons a step can stop, and the state after reset
(10_state.md R41). -/

namespace Sys2Proof.Machine

/-- The state of the core, R20's fields (`x`, `pc`, `run`, `cause`, and `mem` with the segment table and the free-id
stack), and what a model carries beside it (R20, 40_execution_cycle.md R130): the bytes emitted, the Input requests made
(`received` and `asking`), the input environment and the parameters. Plain data. -/
structure State where
  x        : RegFile
  pc       : Word
  run      : RunState
  cause    : Option Cause
  mem      : Memory
  /-- Bytes emitted since reset, oldest first (45_io.md R203; log entry 12). -/
  output   : List Byte
  /-- Answers taken by Input since reset, oldest first (45_io.md R204; log entry 12). -/
  received : List Answer
  /-- An Input request has been made whose answer the core has not taken (40_execution_cycle.md R130, 45_io.md R204, R205;
  log entry 12). -/
  asking   : Bool
  /-- The answers the host has still to give (45_io.md R204; log entry 5). -/
  input    : InputEnv
  /-- The parameters of 00_scope.md R7; no step changes them. -/
  cfg      : Config
deriving DecidableEq, Repr

/-- Reasons the MODEL stops. The spec's seven faults are not among them: their entry is a next state
(60_exceptions.md R221; log entry 8). -/
inductive Fault where
  /-- Raised by the fetch when segment 0 is not live. Safe: the spec says it cannot happen ("id 0 is always live",
  20_memory.md R55), and no state that meets `StateInv` raises it (log entry 9). -/
  | noProgramSegment
deriving DecidableEq, Repr

/-- Reasons the model has no meaning for an instruction. -/
inductive Refusal where
  /-- Raised by an arm of `exec` whose instruction has no meaning yet; no arm is one now. Safe. -/
  | notModelled (mnemonic : String)
deriving DecidableEq, Repr

/-- The standard host of 45_io.md R204 with the given bytes: each in order, then end-of-stream for ever. -/
def InputEnv.standard (bytes : List Byte) : InputEnv :=
  { answers := bytes.map Answer.byte, thereafter := some .eos }

/-- The state after reset with the empty program image (10_state.md R41, 70_reset_and_hazards.md R252): no program is
put into it (log entry 10). The registers' value 0 is decision D2 (log entry 2), the parameters are R7's defaults (log
entries 3, 4), the input is the standard host with no bytes (log entry 5). -/
def State.reset : State :=
  { x        := Vector.replicate 8 0#32
    pc       := 0#32
    run      := .running
    cause    := none
    mem      := { segs := [.seg { length := 0, cells := [] }], free := [] }
    output   := []
    received := []
    asking   := false
    input    := InputEnv.standard []
    cfg      := Config.default }

end Sys2Proof.Machine
end

