-- ==== Sys2Proof/Machine/Ops.lean ====
section
/-! DEFINITION. The named operations over registers, memory, the segment manager and the channels, and taking a fault
(00_scope.md R9, 20_memory.md section 3, 60_exceptions.md section 3). -/

namespace Sys2Proof.Machine

/-! ## Registers and program counter -/

/-- `x[i]` (00_scope.md R9). -/
def State.reg (s : State) (i : Reg) : Word := s.x[i]

/-- `x[i] <- v` (00_scope.md R9). No register is special (10_state.md R21). -/
def State.setReg (s : State) (i : Reg) (v : Word) : State := { s with x := s.x.set i v }

/-- `pc <- t`. -/
def State.setPc (s : State) (t : Word) : State := { s with pc := t }

/-- `pc <- (p + 1) mod 2^32` (40_execution_cycle.md R124, 10_state.md R28). -/
def State.advance (s : State) : State := s.setPc (s.pc + 1#32)

/-- `run <- Halted` (44_control.md R190). -/
def State.halt (s : State) : State := { s with run := .halted }

/-- The segment manager's memory replaced by `m`. -/
def State.setMem (s : State) (m : Memory) : State := { s with mem := m }

/-! ## Faults -/

/-- The code of a fault cause (60_exceptions.md R211). -/
def Cause.code : Cause → Nat
  | .illegalOpcode => 1
  | .divideByZero => 2
  | .fetchFault => 3
  | .segmentIdFault => 4
  | .offsetFault => 5
  | .unmapFault => 6
  | .resourceFault => 7

/-- TAKING A FAULT, the whole entry (60_exceptions.md R221, R125): `run <- Aborted`, `cause <-` the fault's code, and
nothing else changes. There is no return from a fault (R222). -/
def State.raise (s : State) (c : Cause) : State := { s with run := .aborted, cause := some c }

/-- `raise <Fault>` as an instruction's outcome (00_scope.md R9). -/
def trap (s : State) (c : Cause) : Host.Outcome State Fault Refusal := .next (s.raise c)

/-! ## The words of a segment -/

/-- The word listed at offset `a`, or 0 where none is listed. -/
def readCells : List (Nat × Word) → Nat → Word
  | [], _ => 0#32
  | (k, v) :: t, a => if k = a then v else readCells t a

/-- The list with the word `v` at offset `a`, in canonical form again: rising offsets, no zero listed. -/
def writeCells : List (Nat × Word) → Nat → Word → List (Nat × Word)
  | [], a, v => if v = 0#32 then [] else [(a, v)]
  | (k, u) :: t, a, v =>
    if a < k then (if v = 0#32 then (k, u) :: t else (a, v) :: (k, u) :: t)
    else if k = a then (if v = 0#32 then t else (a, v) :: t)
    else (k, u) :: writeCells t a v

/-- The canonical form of a segment's list: offsets strictly rising and below `bound`, no zero listed (log entry 1). -/
def cellsWf (bound : Nat) : List (Nat × Word) → Bool
  | [] => true
  | (k, v) :: t => decide (k < bound) && decide (v ≠ 0#32) && t.all (fun e => decide (k < e.1)) && cellsWf bound t

/-- The words of a list as cells, the first at offset `k`. -/
def cellsFrom (k : Nat) : List Word → List (Nat × Word)
  | [] => []
  | w :: ws => if w = 0#32 then cellsFrom (k + 1) ws else (k, w) :: cellsFrom (k + 1) ws

/-- `Seg(n words, each 0x00000000)` (20_memory.md R57). -/
def Segment.zeros (n : Nat) : Segment := { length := n, cells := [] }

/-- `Seg(words)` (10_state.md R20). -/
def Segment.ofWords (ws : List Word) : Segment := { length := ws.length, cells := cellsFrom 0 ws }

/-- The segment as the sequence of its words (10_state.md R20). -/
def Segment.words (g : Segment) : List Word := (List.range g.length).map (readCells g.cells)

/-- `words[off]`, where `off` is below the length. -/
def Segment.read (g : Segment) (off : Nat) : Option Word :=
  if off < g.length then some (readCells g.cells off) else none

/-- `words[off] <- v`, where `off` is below the length; the length does not change (20_memory.md R56). -/
def Segment.write (g : Segment) (off : Nat) (v : Word) : Option Segment :=
  if off < g.length then some { g with cells := writeCells g.cells off v } else none

/-- The canonical form of a segment. -/
def Segment.wf (g : Segment) : Bool := cellsWf g.length g.cells

/-! ## The segment table -/

/-- The live segment under `id`, if there is one (10_state.md R37). -/
def Memory.segment (m : Memory) (id : Nat) : Option Segment :=
  match m.segs[id]? with
  | some (.seg g) => some g
  | _ => none

/-- `Live(id)` (00_scope.md R9, 10_state.md R37). -/
def Memory.live (m : Memory) (id : Nat) : Bool := (m.segment id).isSome

/-- `Len(id)` of a live segment; 0 for an id that is not live, which no rule asks for. -/
def Memory.len (m : Memory) (id : Nat) : Nat :=
  match m.segment id with
  | some g => g.length
  | none => 0

/-- `segs[id] <- e`. An id outside the table changes nothing (no rule writes there; log entry 11). -/
def Memory.setSlot (m : Memory) (id : Nat) (e : Slot) : Memory := { m with segs := m.segs.set id e }

/-- The canonical form of a slot. -/
def Slot.wf : Slot → Bool
  | .seg g => g.wf
  | .tomb => true

/-- The canonical form of memory: every live segment is in canonical form (log entry 1). -/
def Memory.wf (m : Memory) : Bool := m.segs.all Slot.wf

/-- The number of words of all live segments (20_memory.md R61). -/
def Memory.liveWords (m : Memory) : Nat :=
  (m.segs.map fun e => match e with
    | .seg g => g.length
    | .tomb => 0).sum

/-! ## The segment manager's operations (20_memory.md section 3) -/

/-- `MemRead((id, off), 32)` (R55): the id is checked before the offset; no state changes. -/
def Memory.read (m : Memory) (id off : Nat) : Except Cause Word :=
  match m.segment id with
  | none => .error .segmentIdFault
  | some g =>
    match g.read off with
    | none => .error .offsetFault
    | some v => .ok v

/-- `MemWrite((id, off), 32, v)` (R56): the checks of `MemRead`, then that one word is replaced. -/
def Memory.write (m : Memory) (id off : Nat) (v : Word) : Except Cause Memory :=
  match m.segment id with
  | none => .error .segmentIdFault
  | some g =>
    match g.write off v with
    | none => .error .offsetFault
    | some g' => .ok (m.setSlot id (.seg g'))

/-- `AllocOK(S, n)` (R61), as the parameter `cfg.alloc` gives it. -/
def State.allocOK (s : State) (n : Nat) : Bool :=
  match s.cfg.alloc with
  | .unbounded => true
  | .capacity maxWords => decide (s.mem.liveWords + n ≤ maxWords)
  | .oracle => Config.allocOracle s.x s.pc s.run s.cause s.mem n

/-- `SegMap(n)` (R57): the most recently freed id is used first, else a new id is appended; all words zero. Answers the
id and the memory after. -/
def State.segMap (s : State) (n : Nat) : Except Cause (Nat × Memory) :=
  if s.allocOK n then
    match s.mem.free with
    | id :: rest => .ok (id, { s.mem.setSlot id (.seg (Segment.zeros n)) with free := rest })
    | [] =>
      if s.mem.segs.length < s.cfg.maxIds then
        .ok (s.mem.segs.length, { s.mem with segs := s.mem.segs ++ [.seg (Segment.zeros n)] })
      else .error .resourceFault
  else .error .resourceFault

/-- `SegUnmap(id)` (R58): id 0, a tombstone and an id outside the table fault. -/
def Memory.unmap (m : Memory) (id : Nat) : Except Cause Memory :=
  if id ≠ 0 ∧ m.live id then .ok { m.setSlot id .tomb with free := id :: m.free }
  else .error .unmapFault

/-- `SegReplaceZero(src)` (R59): segment 0 becomes a copy of segment `src`, which stays live; `src = 0` is a no-op. -/
def State.segReplaceZero (s : State) (src : Nat) : Except Cause Memory :=
  if src = 0 then .ok s.mem
  else
    match s.mem.segment src with
    | none => .error .segmentIdFault
    | some g => if s.allocOK g.length then .ok (s.mem.setSlot 0 (.seg g)) else .error .resourceFault

/-! ## The channels (45_io.md) -/

/-- `Emit(b)` (R203): the host always accepts (log entry 17); the list of bytes emitted only grows (log entry 12). -/
def State.emit (s : State) (b : Byte) : State := { s with output := s.output ++ [b] }

/-- The host's next answer and the environment after it; nothing while the host has not answered (R204, R205). -/
def InputEnv.next (e : InputEnv) : Option (Answer × InputEnv) :=
  match e.answers with
  | a :: rest => some (a, { e with answers := rest })
  | [] => e.thereafter.map fun a => (a, e)

/-- The core has made an Input request that is not answered yet (R205, 40_execution_cycle.md R130; log entry 12). -/
def State.ask (s : State) : State := { s with asking := true }

/-- The core has taken answer `a`, and the environment is now `e` (R204: one answer per Input); no request is left
outstanding. -/
def State.take (s : State) (a : Answer) (e : InputEnv) : State :=
  { s with received := s.received ++ [a], asking := false, input := e }

end Sys2Proof.Machine
end

