-- ==== Sys2Proof/Machine/Operands.lean ====
section
/-! DEFINITION. The operand forms: a register index (30_encoding.md R95), the zero-extended immediate (R94), the
register-pair address (42_segment_memory.md R150), and the arithmetic of 43_arithmetic_logic.md. -/

namespace Sys2Proof.Machine

/-- A register used as a segment id, an offset or a size: its unsigned value (00_scope.md R8). -/
def State.regNat (s : State) (i : Reg) : Nat := (s.reg i).toNat

/-- `zext_32(imm)` (30_encoding.md R94): not sign-extended, not shifted, not scaled. -/
def zextImm (imm : BitVec 25) : Word := imm.setWidth 32

/-- `zext_32(b)` of a received byte (45_io.md R201). -/
def zextByte (b : Byte) : Word := b.setWidth 32

/-- The register value of a host's answer (45_io.md R201). -/
def answerWord : Answer → Word
  | .byte b => zextByte b
  | .eos => eosValue

/-- The address of a load, `(x[b], x[c])` (42_segment_memory.md R150, R151). -/
def loadAddress (b c : Reg) (s : State) : Nat × Nat := (s.regNat b, s.regNat c)

/-- The address of a store, `(x[a], x[b])` (42_segment_memory.md R150, R152). -/
def storeAddress (a b : Reg) (s : State) : Nat × Nat := (s.regNat a, s.regNat b)

/-- `(u + v) mod 2^32` (43_arithmetic_logic.md R170). -/
def addWord (u v : Word) : Word := u + v

/-- `(u * v) mod 2^32`, the low half of the product (43_arithmetic_logic.md R171). -/
def mulWord (u v : Word) : Word := u * v

/-- `floor(u / v)`, unsigned, for `v` not 0 (43_arithmetic_logic.md R172). -/
def divWord (u v : Word) : Word := u / v

/-- The bitwise complement of the conjunction (43_arithmetic_logic.md R173). -/
def nandWord (u v : Word) : Word := ~~~(u &&& v)

end Sys2Proof.Machine
end

