-- ==== Sys2Proof/Machine/Arith.lean ====
section
/-! DEFINITION. Arithmetic and logic: ADD, MUL, DIV, NAND (43_arithmetic_logic.md). The sources are read before the
destination is written (R175). -/

namespace Sys2Proof.Machine

/-- ADD (R170). -/
def execAdd (a b c : Reg) (s : State) : Host.Outcome State Fault Refusal :=
  .next (s.setReg a (addWord (s.reg b) (s.reg c))).advance

/-- MUL (R171). -/
def execMul (a b c : Reg) (s : State) : Host.Outcome State Fault Refusal :=
  .next (s.setReg a (mulWord (s.reg b) (s.reg c))).advance

/-- DIV (R172): a zero divisor takes `DivideByZero`. -/
def execDiv (a b c : Reg) (s : State) : Host.Outcome State Fault Refusal :=
  if s.reg c = 0#32 then trap s .divideByZero
  else .next (s.setReg a (divWord (s.reg b) (s.reg c))).advance

/-- NAND (R173). -/
def execNand (a b c : Reg) (s : State) : Host.Outcome State Fault Refusal :=
  .next (s.setReg a (nandWord (s.reg b) (s.reg c))).advance

end Sys2Proof.Machine
end

