-- ==== Sys2Proof/Machine/Flags.lean ====
section
/-! DEFINITION. The machine has no flags and no condition codes (10_state.md R30). What stands in their place are the
tests of a whole register that R30 names. -/

namespace Sys2Proof.Machine

/-- CMOV's and LOADPROG's test: all 32 bits, any non-zero value is true (41_move_and_immediate.md R140). -/
def nonZero (v : Word) : Bool := v != 0#32

/-- OUT's test: unsigned, at most 255 (45_io.md R200). -/
def emittable (v : Word) : Bool := decide (v ≤ outMax)

end Sys2Proof.Machine
end

