-- ==== Sys2Proof/Machine/Console.lean ====
section
/-! DEFINITION. Console output and input: OUT and IN (45_io.md). -/

namespace Sys2Proof.Machine

/-- OUT (R200): a value of at most 255 is emitted as one byte; a greater one is skipped, which is no fault. -/
def execOut (c : Reg) (s : State) : Host.Outcome State Fault Refusal :=
  .next (if emittable (s.reg c) then (s.emit ((s.reg c).setWidth 8)).advance else s.advance)

/-- IN (R201): `x[c]` takes the host's answer. While the host has not answered, the request is outstanding and the core
waits: no field of 10_state.md R20 changes (R205, 40_execution_cycle.md R127; log entry 6). -/
def execInp (c : Reg) (s : State) : Host.Outcome State Fault Refusal :=
  match s.input.next with
  | none => .next s.ask
  | some (r, e) => .next ((s.take r e).setReg c (answerWord r)).advance

end Sys2Proof.Machine
end

