-- ==== Sys2Proof/Machine/Control.lean ====
section
/-! DEFINITION. Control: HALT and LOADPROG (44_control.md). -/

namespace Sys2Proof.Machine

/-- HALT (R190): `run <- Halted`; `pc` stays at the HALT word. -/
def execHalt (s : State) : Host.Outcome State Fault Refusal := .next s.halt

/-- LOADPROG (R192): both registers are read first. With `x[b]` not 0, segment 0 becomes a copy of segment `x[b]` and
`x[b] <- 0`; in either form `pc <- x[c]`, unchecked (R191). -/
def execLoadprog (b c : Reg) (s : State) : Host.Outcome State Fault Refusal :=
  if nonZero (s.reg b) then
    match s.segReplaceZero (s.regNat b) with
    | .error e => trap s e
    | .ok m => .next (((s.setMem m).setReg b 0#32).setPc (s.reg c))
  else .next (s.setPc (s.reg c))

end Sys2Proof.Machine
end

