-- ==== Sys2Proof/Machine/Move.lean ====
section
/-! DEFINITION. Register moves: CMOV and LOADI (41_move_and_immediate.md). -/

namespace Sys2Proof.Machine

/-- CMOV (R140): `x[a] <- x[b]` if `x[c]` is not 0. -/
def execCmov (a b c : Reg) (s : State) : Host.Outcome State Fault Refusal :=
  .next (if nonZero (s.reg c) then (s.setReg a (s.reg b)).advance else s.advance)

/-- LOADI (R141): `x[a] <- zext_32(imm)`. -/
def execLoadi (a : Reg) (imm : BitVec 25) (s : State) : Host.Outcome State Fault Refusal :=
  .next (s.setReg a (zextImm imm)).advance

end Sys2Proof.Machine
end

