-- ==== Sys2Proof/Machine/SegMem.lean ====
section
/-! DEFINITION. Segment memory: SLOAD, SSTORE, MAP, UNMAP (42_segment_memory.md). -/

namespace Sys2Proof.Machine

/-- SLOAD (R151): `x[a] <- MemRead((x[b], x[c]), 32)`. -/
def execSload (a b c : Reg) (s : State) : Host.Outcome State Fault Refusal :=
  match s.mem.read (loadAddress b c s).1 (loadAddress b c s).2 with
  | .error e => trap s e
  | .ok v => .next (s.setReg a v).advance

/-- SSTORE (R152): `MemWrite((x[a], x[b]), 32, x[c])`. -/
def execSstore (a b c : Reg) (s : State) : Host.Outcome State Fault Refusal :=
  match s.mem.write (storeAddress a b s).1 (storeAddress a b s).2 (s.reg c) with
  | .error e => trap s e
  | .ok m => .next (s.setMem m).advance

/-- MAP (R153): `x[b] <- SegMap(x[c])`; the id fits a register because the table has at most `MAX_IDS` entries
(20_memory.md R57; log entry 11). -/
def execMap (b c : Reg) (s : State) : Host.Outcome State Fault Refusal :=
  match s.segMap (s.regNat c) with
  | .error e => trap s e
  | .ok (id, m) => .next ((s.setMem m).setReg b (BitVec.ofNat 32 id)).advance

/-- UNMAP (R154): `SegUnmap(x[c])`; no register is written. -/
def execUnmap (c : Reg) (s : State) : Host.Outcome State Fault Refusal :=
  match s.mem.unmap (s.regNat c) with
  | .error e => trap s e
  | .ok m => .next (s.setMem m).advance

end Sys2Proof.Machine
end

