-- ==== Sys2Proof/Machine/Cycle.lean ====
section
/-! DEFINITION. The step procedure: fetch, decode, dispatch (40_execution_cycle.md rule R120). -/

namespace Sys2Proof.Machine

/-- What a fetch gives. -/
inductive Fetched where
  | word (w : Word)      -- the word at (0, pc)
  | outside              -- pc is not below the length of segment 0 (R121)
  | noProgram            -- segment 0 is not live, which cannot happen (20_memory.md R55)
deriving DecidableEq, Repr

/-- The fetch at `(0, pc)` (R121): an ordinary read of segment 0 (20_memory.md R72). -/
def State.fetch (s : State) : Fetched :=
  match s.mem.segment 0 with
  | none => .noProgram
  | some g =>
    match g.read s.pc.toNat with
    | none => .outside
    | some w => .word w

/-- One step of a running core on what it fetched (R120 steps 1 to 6; fault priority 60_exceptions.md R220). That the
core is running is tested in `cycle`, not in `exec` (log entry 18). -/
def runFetched (f : Fetched) (s : State) : Host.Outcome State Fault Refusal :=
  match f with
  | .noProgram => .fault .noProgramSegment
  | .outside => trap s .fetchFault
  | .word w =>
    match decode w with
    | .error _ => trap s .illegalOpcode
    | .ok i => exec i s

/-- The whole cycle. In `Halted` and `Aborted` no instruction runs and the state stays (60_exceptions.md R222; log
entry 7). -/
def cycle (s : State) : Host.Outcome State Fault Refusal :=
  match s.run with
  | .running => runFetched s.fetch s
  | .halted => .next s
  | .aborted => .next s

/-- Segment 0 with the word `w` at offset `k`, made longer where `k` is outside it. -/
def Segment.place (g : Segment) (k : Nat) (w : Word) : Segment :=
  { length := max g.length (k + 1), cells := writeCells g.cells k w }

/-- The memory with the word `w` at `(0, k)`; a segment 0 is made where there is none. -/
def Memory.placeProgramWord (m : Memory) (k : Nat) (w : Word) : Memory :=
  let g := ((m.segment 0).getD (Segment.zeros 0)).place k w
  match m.segs with
  | [] => { m with segs := [.seg g] }
  | _ :: rest => { m with segs := .seg g :: rest }

/-- The state as after a load of a program that has the word `w` at the index of the next fetch (log entry 10). Only a
running core fetches, and a running core has no cause (10_state.md R32). -/
def State.placeFetchWord (s : State) (w : Word) : State :=
  { s with run := .running, cause := none, mem := s.mem.placeProgramWord s.pc.toNat w }

end Sys2Proof.Machine
end

