-- ==== Sys2Proof/Machine/HostIface.lean ====
section
/-! DEFINITION. The host's transactions beside Emit and Recv, and what the host derives (70_reset_and_hazards.md rule
R255, 60_exceptions.md rule R228). No step of the core calls these. -/

namespace Sys2Proof.Machine

/-- `Reset(W)` (70_reset_and_hazards.md R250; `Initialize(W)`, 20_memory.md R60): the state of 10_state.md R41 for the
program image `W`, with the given parameters and input environment. R252 bounds the image at `MAX_IMAGE_WORDS` words and
says nothing of a longer list: one is installed whole, with no check (DESIGN CHOICE, unsafe, log entry 19). -/
def State.boot (cfg : Config) (input : InputEnv) (W : List Word) : State :=
  { State.reset with
    mem   := { segs := [.seg (Segment.ofWords W)], free := [] }
    input := input
    cfg   := cfg }

/-- `Reset(W)` applied to a core in any state: nothing of the earlier run survives, and the input environment is
at its beginning (70_reset_and_hazards.md R253, 10_state.md R41). A list longer than `MAX_IMAGE_WORDS` is installed whole,
as `State.boot` says (log entry 19). -/
def State.hostReset (s : State) (input : InputEnv) (W : List Word) : State := State.boot s.cfg input W

/-- Start-up from image bytes: a malformed image never starts the core (60_exceptions.md R225, 20_memory.md R64). -/
def State.bootImage (cfg : Config) (input : InputEnv) (bytes : List Byte) : Option State :=
  (imageWords bytes).map (State.boot cfg input)

/-- The host supplies one more answer, to the request outstanding or a later one (45_io.md R204); it may do so between any
two steps. -/
def State.hostAnswers (s : State) (a : Answer) : State :=
  { s with input := { s.input with answers := s.input.answers ++ [a] } }

/-- The status read: `run`, and `cause` when `run = Aborted` (60_exceptions.md R228). -/
def State.status (s : State) : RunState × Option Cause :=
  (s.run, if s.run = .aborted then s.cause else none)

/-- The Input requests made since reset, in order, each with the answer taken; the last has none while it is outstanding
(40_execution_cycle.md R130, 45_io.md R204). -/
def State.requests (s : State) : List (Option Answer) :=
  s.received.map some ++ if s.asking then [none] else []

/-- All that crosses the boundary of the core (40_execution_cycle.md R130). -/
def State.observe (s : State) : Observation :=
  { output := s.output, requests := s.requests, run := s.status.1, cause := s.status.2 }

/-- The process exit status the surrounding software derives from `run` (60_exceptions.md R228; log entry 13). -/
def State.exitStatus (s : State) : Option Nat :=
  match s.run with
  | .running => none
  | .halted => some 0
  | .aborted => some Config.abortStatus

end Sys2Proof.Machine
end

