-- ==== Sys2Proof/Safety.lean ====
section
/-! DEFINITION. The machine's invariant, what a step leaves alone, and what counts as a safe run. -/

namespace Sys2Proof.Machine

/-- What the spec says of every state the machine reaches. -/
structure StateInv (s : State) : Prop where
  /-- Every live segment is in canonical form (log entry 1). -/
  memWf : s.mem.wf = true
  /-- "`segs[0]` is always live" (10_state.md R37). -/
  programLive : s.mem.live 0 = true
  /-- Each id stands on the free-id stack once (10_state.md R38). -/
  freeNodup : s.mem.free.Nodup
  /-- "the ids on the stack are exactly the ids whose table entry is `Tomb`" (10_state.md R38). -/
  freeIffTomb : ∀ id, id ∈ s.mem.free ↔ s.mem.segs[id]? = some .tomb
  /-- `|segs| ≤ MAX_IDS` (10_state.md R37). -/
  tableBound : s.mem.segs.length ≤ s.cfg.maxIds
  /-- `1 ≤ MAX_IDS ≤ 2^32` (00_scope.md R7). -/
  cfgWf : s.cfg.wf = true
  /-- "every segment has at most 2^32 − 1 words" (10_state.md R36). -/
  lengthBound : ∀ id g, s.mem.segment id = some g → g.length ≤ maxImageWords
  /-- `cause` is `None` exactly while no fault has occurred (10_state.md R32). -/
  causeIff : s.cause = none ↔ s.run ≠ .aborted
  /-- A request is outstanding only while the core stands, running, at an IN: "there is no other suspension point"
  (45_io.md R205). -/
  askingAtIn : s.asking = true →
    s.run = .running ∧ ∃ w c, s.mem.read 0 s.pc.toNat = .ok w ∧ decode w = .ok (.inp c)

/-- Nothing the host sees or gives has changed: output, answers taken, answers to come, parameters, the request
outstanding. -/
def SameHost (s t : State) : Prop :=
  t.output = s.output ∧ t.received = s.received ∧ t.input = s.input ∧ t.cfg = s.cfg ∧ t.asking = s.asking

/-- The run state and the cause have not changed. -/
def SameStatus (s t : State) : Prop := t.run = s.run ∧ t.cause = s.cause

/-- Memory has not changed: the table and the free-id stack are equal, so every address reads as before. -/
def SameMemory (s t : State) : Prop :=
  t.mem = s.mem ∧ ∀ id off, t.mem.read id off = s.mem.read id off

/-- Every register but `r` holds what it held. -/
def OtherRegsSame (r : Reg) (s t : State) : Prop := ∀ q, q ≠ r → t.reg q = s.reg q

/-- Every register holds what it held. -/
def AllRegsSame (s t : State) : Prop := ∀ q, t.reg q = s.reg q

/-- `pc` is one further, modulo 2^32 (40_execution_cycle.md R124). -/
def PcAdvanced (s t : State) : Prop := t.pc.toNat = (s.pc.toNat + 1) % 2 ^ 32

/-- An instruction that only writes register `r`: everything else is unchanged but `pc`, which advances. -/
def WritesOnlyReg (r : Reg) (s t : State) : Prop :=
  OtherRegsSame r s t ∧ PcAdvanced s t ∧ SameStatus s t ∧ SameMemory s t ∧ SameHost s t

/-- The fault `c` has been taken from `s`: the entry of 60_exceptions.md R221, and nothing else has changed. -/
def FaultTaken (c : Cause) (s t : State) : Prop :=
  t.run = .aborted ∧ t.cause = some c ∧ AllRegsSame s t ∧ t.pc = s.pc ∧ SameMemory s t ∧ SameHost s t

/-- The register an instruction may write (10_state.md R22, column "writes"). -/
def destination : Instr → Option Reg
  | .cmov a _ _ | .sload a _ _ | .add a _ _ | .mul a _ _ | .div a _ _ | .nand a _ _ | .loadi a _ => some a
  | .map b _ | .loadprog b _ => some b
  | .inp c => some c
  | .sstore .. | .halt | .unmap _ | .out _ => none

/-- The instructions that may change memory (20_memory.md R51). -/
def changesMemory : Instr → Bool
  | .sstore .. | .map .. | .unmap _ | .loadprog .. => true
  | .cmov .. | .sload .. | .add .. | .mul .. | .div .. | .nand .. | .halt | .out _ | .inp _ | .loadi .. => false

/-- The bits of an instruction word that its decoding reads (30_encoding.md R96, column "fields ignored"). -/
def usedBits : Instr → Word
  | .cmov .. | .sload .. | .sstore .. | .add .. | .mul .. | .div .. | .nand .. => 0xF00001FF#32
  | .halt => 0xF0000000#32
  | .map .. | .loadprog .. => 0xF000003F#32
  | .unmap _ | .out _ | .inp _ => 0xF0000007#32
  | .loadi .. => 0xFFFFFFFF#32

/-- The core waits: it is running, the word fetched is an IN, and the host has not answered (45_io.md R205). -/
def Waiting (s : State) : Prop :=
  s.run = .running ∧ s.input.next = none ∧
    ∃ w c, s.mem.read 0 s.pc.toNat = .ok w ∧ decode w = .ok (.inp c)

/-- A step of a core that waits: its Input request is outstanding, and nothing else has changed (45_io.md R205). -/
def OnlyAsked (s t : State) : Prop :=
  t.asking = true ∧ AllRegsSame s t ∧ t.pc = s.pc ∧ SameStatus s t ∧ SameMemory s t ∧ t.output = s.output ∧
    t.received = s.received ∧ t.input = s.input ∧ t.cfg = s.cfg

/-- A run has ended (70_reset_and_hazards.md R262). -/
def Ended (s : State) : Prop := s.run ≠ .running

/-- A run that has not faulted (60_exceptions.md R210). -/
def FaultFree (s : State) : Prop := s.run ≠ .aborted

end Sys2Proof.Machine
end

