-- ==== Sys2Proof/Certificates/Slice0/Obligations.lean ====
section
/-! DEFINITION. The statements for the provers. Each says which rule of spec/ it formalises; where a clause rests on a
decision of the spec's own (92_eei_decisions.md) or of this model (notes/assumptions/), the docstring says so. -/

open Sys2Proof Sys2Proof.Machine

/-! ## Helpers of the statements -/

/-- Every word whose bits [31:28] are `n` decodes to the instruction `f` gives: the "Encoding" line of an instruction's
rule, `w & 0xF0000000 = match` (30_encoding.md R96). -/
def Sys2Proof.EncodedAs (n : Nat) (f : Word → Instr) : Prop :=
  ∀ w : Word, w &&& 0xF0000000#32 = BitVec.ofNat 32 (n * 2 ^ 28) → decode w = .ok (f w)

/-- The register a number names by its last three bits. -/
def Sys2Proof.regMod (n : Nat) : Reg := ⟨n % 8, Nat.mod_lt n (by decide)⟩

/-- Decoding by arithmetic on the word's number, from the layouts of 30_encoding.md R91 and R92 and the table of R96:
`a = ⌊n / 2^6⌋ mod 8`, `b = ⌊n / 2^3⌋ mod 8`, `c = n mod 8`; for opcode 13, `a = ⌊n / 2^25⌋ mod 8`, `imm = n mod 2^25`.
Nothing for opcodes 14 and 15. -/
def Sys2Proof.decodeNumber (n : Nat) : Option Instr :=
  match n / 2 ^ 28 with
  | 0 => some (.cmov (regMod (n / 2 ^ 6)) (regMod (n / 2 ^ 3)) (regMod n))
  | 1 => some (.sload (regMod (n / 2 ^ 6)) (regMod (n / 2 ^ 3)) (regMod n))
  | 2 => some (.sstore (regMod (n / 2 ^ 6)) (regMod (n / 2 ^ 3)) (regMod n))
  | 3 => some (.add (regMod (n / 2 ^ 6)) (regMod (n / 2 ^ 3)) (regMod n))
  | 4 => some (.mul (regMod (n / 2 ^ 6)) (regMod (n / 2 ^ 3)) (regMod n))
  | 5 => some (.div (regMod (n / 2 ^ 6)) (regMod (n / 2 ^ 3)) (regMod n))
  | 6 => some (.nand (regMod (n / 2 ^ 6)) (regMod (n / 2 ^ 3)) (regMod n))
  | 7 => some .halt
  | 8 => some (.map (regMod (n / 2 ^ 3)) (regMod n))
  | 9 => some (.unmap (regMod n))
  | 10 => some (.out (regMod n))
  | 11 => some (.inp (regMod n))
  | 12 => some (.loadprog (regMod (n / 2 ^ 3)) (regMod n))
  | 13 => some (.loadi (regMod (n / 2 ^ 25)) (BitVec.ofNat 25 (n % 2 ^ 25)))
  | _ => none

/-- The number of an instruction's canonical word: the encoders of 95_test_vectors.md, from R91 and R92. -/
def Sys2Proof.wordNumber : Instr → Nat
  | .cmov a b c => 0 * 2 ^ 28 + a.val * 64 + b.val * 8 + c.val
  | .sload a b c => 1 * 2 ^ 28 + a.val * 64 + b.val * 8 + c.val
  | .sstore a b c => 2 * 2 ^ 28 + a.val * 64 + b.val * 8 + c.val
  | .add a b c => 3 * 2 ^ 28 + a.val * 64 + b.val * 8 + c.val
  | .mul a b c => 4 * 2 ^ 28 + a.val * 64 + b.val * 8 + c.val
  | .div a b c => 5 * 2 ^ 28 + a.val * 64 + b.val * 8 + c.val
  | .nand a b c => 6 * 2 ^ 28 + a.val * 64 + b.val * 8 + c.val
  | .halt => 7 * 2 ^ 28
  | .map b c => 8 * 2 ^ 28 + b.val * 8 + c.val
  | .unmap c => 9 * 2 ^ 28 + c.val
  | .out c => 10 * 2 ^ 28 + c.val
  | .inp c => 11 * 2 ^ 28 + c.val
  | .loadprog b c => 12 * 2 ^ 28 + b.val * 8 + c.val
  | .loadi a imm => 13 * 2 ^ 28 + a.val * 2 ^ 25 + imm.toNat

/-- The state's input environment replaced. -/
def Sys2Proof.Machine.State.withInput (s : State) (e : InputEnv) : State := { s with input := e }

/-- Everything but memory and `pc` is unchanged, and `pc` is one further. -/
def Sys2Proof.Machine.OnlyMemoryChanged (s t : State) : Prop :=
  AllRegsSame s t ∧ PcAdvanced s t ∧ SameStatus s t ∧ SameHost s t

/-! ## Encoding -/

/-- Decode and encode agree: for every instruction, with every operand at every value (30_encoding.md R91, R92, R99). -/
def Obligations.DecodeOfEncode : Prop := ∀ i : Instr, decode (encode i) = .ok i

/-- The decoder reads exactly the bit ranges of R91 and R92 and dispatches by the table of R96, for all 2^32 words. -/
def Obligations.DecodeReadsTheFieldsOfEveryWord : Prop :=
  (∀ w : Word, (decode w).toOption = decodeNumber w.toNat) ∧ ∀ i : Instr, (encode i).toNat = wordNumber i

/-- The other direction of the round trip: a decoded word and the canonical word of its instruction agree on every bit
the instruction reads, and the canonical word has zeros elsewhere (R98, R99). -/
def Obligations.EncodeOfDecode : Prop :=
  ∀ (w : Word) (i : Instr), decode w = .ok i → encode i = w &&& usedBits i

/-- Ignored bits may hold any value (R98; the spec's own decision D10, log entry 15). -/
def Obligations.IgnoredBitsChangeNothing : Prop :=
  ∀ (w v : Word) (i : Instr), decode w = .ok i → v &&& usedBits i = w &&& usedBits i → decode v = .ok i

/-- Words written out in 30_encoding.md R103 and in the decoder table of 95_test_vectors.md. -/
def Obligations.WrittenWordsDecode : Prop :=
  decode 0x00000171#32 = .ok (.cmov 5 6 1) ∧ decode 0x10000153#32 = .ok (.sload 5 2 3) ∧
  decode 0x2000009C#32 = .ok (.sstore 2 3 4) ∧ decode 0x3FFFFE0A#32 = .ok (.add 0 1 2) ∧
  decode 0x89ABCDEF#32 = .ok (.map 5 7) ∧ decode 0x7ABCDEF0#32 = .ok .halt ∧
  decode 0xA00001F8#32 = .ok (.out 0) ∧ decode 0xC0000015#32 = .ok (.loadprog 2 5) ∧
  decode 0xD7234567#32 = .ok (.loadi 3 0x1234567#25) ∧
  decode 0xFFFFFFFF#32 = .error (.illegalOpcode 15#4)

/-- The program image is big-endian, four bytes a word; an image whose length is no multiple of 4 has no words and
never starts the core (20_memory.md R64). The bound on the length is R252's `MAX_IMAGE_WORDS`. -/
def Obligations.ImageBytesAreBigEndianWords : Prop :=
  (∀ (B : List Byte), B.length % 4 = 0 → B.length / 4 ≤ maxImageWords →
    ∃ W : List Word, imageWords B = some W ∧ W.length = B.length / 4 ∧
      ∀ i, i < W.length → (W.getD i 0#32).toNat =
        (B.getD (4 * i) 0#8).toNat * 2 ^ 24 + (B.getD (4 * i + 1) 0#8).toNat * 2 ^ 16 +
        (B.getD (4 * i + 2) 0#8).toNat * 2 ^ 8 + (B.getD (4 * i + 3) 0#8).toNat) ∧
  ∀ (B : List Byte) (cfg : Config) (e : InputEnv), B.length % 4 ≠ 0 →
    imageWords B = none ∧ State.bootImage cfg e B = none

/-! ## Reset and the invariant -/

/-- Reset with the image `W`: its words are segment 0, only id 0 is live, the free stack is empty (20_memory.md R60),
`pc` is 0 and the core is running (10_state.md R29). For a list longer than `MAX_IMAGE_WORDS`, of which the spec says
nothing, this is the model's choice (log entry 19). -/
def Obligations.ResetInstallsTheImage : Prop :=
  ∀ (cfg : Config) (e : InputEnv) (W : List Word),
    (∃ g, (State.boot cfg e W).mem.segs = [.seg g] ∧ g.words = W) ∧
    (∀ off, (State.boot cfg e W).mem.read 0 off = if h : off < W.length then .ok W[off] else .error .offsetFault) ∧
    (∀ id, id ≠ 0 → (State.boot cfg e W).mem.live id = false) ∧
    (State.boot cfg e W).mem.free = [] ∧
    (State.boot cfg e W).pc.toNat = 0 ∧ (State.boot cfg e W).run = .running

/-- The entry point is fixed (70_reset_and_hazards.md R251): after reset from any state, `pc` is 0, the word at `(0, 0)` is
`W[0]`, and the first step is the meaning of the instruction that word decodes to. -/
def Obligations.FirstInstructionIsTheFirstWord : Prop :=
  ∀ (s : State) (e : InputEnv) (w : Word) (W : List Word) (i : Instr), (w :: W).length ≤ maxImageWords →
    decode w = .ok i → (s.hostReset e (w :: W)).pc.toNat = 0 ∧ (s.hostReset e (w :: W)).mem.read 0 0 = .ok w ∧
      step (s.hostReset e (w :: W)) = exec i (s.hostReset e (w :: W))

/-- The rest of the reset state, whatever the state before (10_state.md R41, 70_reset_and_hazards.md R253): registers
0, which is the spec's own decision D2 (log entry 2), `cause` None (decision D8), nothing emitted, requested or received.
Log entry 19 as in `ResetInstallsTheImage`. -/
def Obligations.ResetClearsTheRest : Prop :=
  ∀ (s : State) (e : InputEnv) (W : List Word),
    (∀ r, (s.hostReset e W).reg r = 0#32) ∧ (s.hostReset e W).cause = none ∧ (s.hostReset e W).output = [] ∧
    (s.hostReset e W).received = [] ∧ (s.hostReset e W).requests = [] ∧ (s.hostReset e W).input = e ∧ (s.hostReset e W).cfg = s.cfg ∧
    ∀ s' : State, s'.cfg = s.cfg → s'.hostReset e W = s.hostReset e W

/-- The invariant holds at State.reset. -/
def Obligations.ResetMeetsTheInvariant : Prop := StateInv State.reset

/-- The invariant holds after reset with any image of at most `MAX_IMAGE_WORDS` words and any parameters R7 allows. -/
def Obligations.BootMeetsTheInvariant : Prop :=
  ∀ (cfg : Config) (e : InputEnv) (W : List Word), cfg.wf = true → W.length ≤ maxImageWords → StateInv (State.boot cfg e W)

/-- Every step keeps the invariant (10_state.md R32, R36, R37, R38; canonical memory, log entry 1; a request outstanding
only at an IN, 45_io.md R205, log entry 12). -/
def Obligations.StepKeepsTheInvariant : Prop :=
  ∀ s t : State, StateInv s → step s = .next t → StateInv t

/-- From a state that meets the invariant every step answers a next state: the model neither faults nor refuses. -/
def Obligations.StepAlwaysAnswersNext : Prop := ∀ s : State, StateInv s → ∃ t, step s = .next t

/-- Every run of every program: after any number of steps from reset with any image, input and parameters, the machine
has a state, that state meets the invariant, and the parameters are what they were. It rests on log entries 3, 4 and 5
(the form of the parameters), 6 and 7 (a step that waits, and a step after the end, answer next) and 8 (faults are next
states). -/
def Obligations.EveryRunKeepsTheInvariant : Prop :=
  ∀ (cfg : Config) (e : InputEnv) (W : List Word), cfg.wf = true → W.length ≤ maxImageWords →
    ∀ k : Nat, ∃ t : State, Host.Core.run Sys2Proof.core k (State.boot cfg e W) = .next t ∧ StateInv t ∧ t.cfg = cfg

/-! ## The step -/

/-- A step of a running core is the meaning of the instruction that the word at `(0, pc)` decodes to, and nothing
around it (40_execution_cycle.md R120). -/
def Obligations.StepRunsTheDecodedInstruction : Prop :=
  ∀ (s : State) (w : Word) (i : Instr), s.run = .running → s.mem.read 0 s.pc.toNat = .ok w → decode w = .ok i →
    step s = exec i s

/-- A fetch at or past the end of segment 0 takes `FetchFault`, `pc` keeping the offending value (R121,
60_exceptions.md R214; what else the fault leaves is the spec's own decision D7, log entry 14). -/
def Obligations.FetchPastTheEndAborts : Prop :=
  ∀ s : State, s.run = .running → s.mem.live 0 = true → s.mem.len 0 ≤ s.pc.toNat →
    ∃ t, step s = .next t ∧ FaultTaken .fetchFault s t

/-- A word of opcode 14 or 15 takes `IllegalOpcode`, and no other word does (30_encoding.md R97, 60_exceptions.md R212;
the abort is the spec's own decision D6, what it leaves is D7, log entry 14). -/
def Obligations.UndefinedOpcodeAborts : Prop :=
  ∀ (s : State) (w : Word), s.run = .running → s.cause = none → s.mem.read 0 s.pc.toNat = .ok w →
    ∃ t, step s = .next t ∧ (w.toNat / 2 ^ 28 = 14 ∨ w.toNat / 2 ^ 28 = 15 → FaultTaken .illegalOpcode s t) ∧
      (t.cause = some .illegalOpcode → w.toNat / 2 ^ 28 = 14 ∨ w.toNat / 2 ^ 28 = 15)

/-- The only stop of the model: a running core whose segment 0 is not live, which the spec says cannot happen
(20_memory.md R55; log entry 9). No step is refused. -/
def Obligations.StepStopsOnlyWithoutSegmentZero : Prop :=
  (∀ (s : State) (f : Fault), step s = .fault f ↔ s.run = .running ∧ s.mem.live 0 = false ∧ f = .noProgramSegment) ∧
  ∀ (s : State) (r : Refusal), step s ≠ .refused r

/-- `Halted` and `Aborted` are terminal: however many steps are asked for, the state stays (60_exceptions.md R222;
that the model answers the same state is log entry 7). -/
def Obligations.TerminalStatesStay : Prop :=
  ∀ (s : State) (k : Nat), s.run ≠ .running → Host.Core.run Sys2Proof.core k s = .next s

/-- A step that ends in `Aborted` has changed nothing but `run` and `cause` (40_execution_cycle.md R125, 60_exceptions.md
R221; the spec's own decision D7, log entry 14). -/
def Obligations.FaultsArePrecise : Prop :=
  ∀ s t : State, s.run = .running → step s = .next t → t.run = .aborted → ∃ c, FaultTaken c s t

/-- The run state's transitions (10_state.md R31) and the cause register (R32; the spec's own, decision D8): a running
core halts exactly on a word of opcode 7, and the cause changes exactly when the core aborts. -/
def Obligations.RunStateTransitions : Prop :=
  ∀ s t : State, s.run = .running → s.cause = none → step s = .next t →
    (t.run = .halted ↔ ∃ w, s.mem.read 0 s.pc.toNat = .ok w ∧ w.toNat / 2 ^ 28 = 7) ∧
    (t.run = .aborted ↔ ∃ c, t.cause = some c) ∧
    (t.run = .running → t.cause = none)

/-- The `pc` after every instruction that completes (10_state.md R26): one further, but HALT leaves it, LOADPROG sets it
to `x[c]`, and an IN that waits leaves it (45_io.md R205; log entry 6). -/
def Obligations.ProgramCounterAfterEachInstruction : Prop :=
  ∀ (i : Instr) (s t : State), s.run = .running → exec i s = .next t → t.run ≠ .aborted →
    match i with
    | .halt => t.pc = s.pc
    | .loadprog _ c => t.pc = s.reg c
    | .inp _ => if s.input.next = none then t.pc = s.pc else PcAdvanced s t
    | .cmov .. | .sload .. | .sstore .. | .add .. | .mul .. | .div .. | .nand .. | .map .. | .unmap _ | .out _
    | .loadi .. => PcAdvanced s t

/-- The wrap of `pc + 1` is never taken: where a word can be fetched, `pc + 1` is below 2^32 (10_state.md R28; width by
the spec's own decision D3, lengths by D14, log entry 16). -/
def Obligations.ProgramCounterNeverWraps : Prop :=
  ∀ (s : State) (w : Word), StateInv s → s.mem.read 0 s.pc.toNat = .ok w → s.pc.toNat + 1 < 2 ^ 32

/-- An instruction writes no register but the one R22 names for it (10_state.md R22). -/
def Obligations.OnlyTheDestinationRegisterChanges : Prop :=
  ∀ (i : Instr) (s t : State), exec i s = .next t → ∀ r : Reg, destination i ≠ some r → t.reg r = s.reg r

/-- Only SSTORE, MAP, UNMAP and LOADPROG change memory (20_memory.md R51): after any other instruction the table and the
free stack are as before and every address reads as before. -/
def Obligations.OnlySegmentInstructionsChangeMemory : Prop :=
  ∀ (i : Instr) (s t : State), exec i s = .next t → changesMemory i = false → SameMemory s t

/-- A step emits at most one byte, and only OUT emits, the value of its register (45_io.md R203). -/
def Obligations.OutputOnlyGrowsByOut : Prop :=
  ∀ s t : State, step s = .next t →
    t.output = s.output ∨
    ∃ w c b, s.mem.read 0 s.pc.toNat = .ok w ∧ decode w = .ok (.out c) ∧ b.toNat = (s.reg c).toNat ∧
      t.output = s.output ++ [b]

/-- Only IN takes an answer, one per IN, the next one of the host (45_io.md R204); no step changes the parameters. -/
def Obligations.AnswersAreTakenOnlyByIn : Prop :=
  ∀ s t : State, step s = .next t →
    t.cfg = s.cfg ∧
    ((t.received = s.received ∧ t.input = s.input) ∨
     ∃ w c a, s.mem.read 0 s.pc.toNat = .ok w ∧ decode w = .ok (.inp c) ∧ s.input.next = some (a, t.input) ∧
       t.received = s.received ++ [a])

/-- The Input requests a run shows (40_execution_cycle.md R130, 45_io.md R204): only a step on an IN makes one, one per IN,
after those made before; it stands without an answer while the host has given none and takes the host's answer in its
place when it comes (the form of the record is log entry 12). -/
def Obligations.RequestsAreMadeOnlyByIn : Prop :=
  ∀ s t : State, step s = .next t →
    t.requests = s.requests ∨
    ∃ w c, s.mem.read 0 s.pc.toNat = .ok w ∧ decode w = .ok (.inp c) ∧
      t.requests.length = s.requests.length + (if s.asking then 0 else 1) ∧
      t.requests = s.received.map some ++ [s.input.next.map Prod.fst]

/-- The core depends on the host's answers only in IN (40_execution_cycle.md R129): where the word fetched is no IN, a
step from a state with another input environment gives the same state but for that environment. -/
def Obligations.OtherStepsDoNotReadTheInput : Prop :=
  ∀ (s t : State) (e : InputEnv), (∀ w c, s.mem.read 0 s.pc.toNat = .ok w → decode w ≠ .ok (.inp c)) →
    step s = .next t → step (s.withInput e) = .next (t.withInput e)

/-- The table never shrinks, and a live segment other than 0 keeps its length while it lives (10_state.md R35, R37). -/
def Obligations.TableGrowsAndLengthsStay : Prop :=
  ∀ s t : State, StateInv s → step s = .next t →
    s.mem.segs.length ≤ t.mem.segs.length ∧
    ∀ id, id ≠ 0 → s.mem.live id = true → t.mem.live id = true → t.mem.len id = s.mem.len id

/-- "ids are pushed only by unmap and only popped by map" (10_state.md R38). -/
def Obligations.FreeStackChangesOnlyByMapAndUnmap : Prop :=
  ∀ (i : Instr) (s t : State), StateInv s → exec i s = .next t →
    t.mem.free = s.mem.free ∨
    (∃ b c, i = .map b c ∧ s.mem.free = (t.reg b).toNat :: t.mem.free) ∨
    (∃ c, i = .unmap c ∧ t.mem.free = (s.reg c).toNat :: s.mem.free)

/-- With the bounded `AllocOK` that 20_memory.md R61 suggests, the live words never exceed the capacity. -/
def Obligations.CapacityIsNeverExceeded : Prop :=
  ∀ (s t : State) (n : Nat), StateInv s → s.cfg.alloc = .capacity n → s.mem.liveWords ≤ n → step s = .next t →
    t.mem.liveWords ≤ n

/-! ## Register moves -/

/-- CMOV (41_move_and_immediate.md R140). -/
def Obligations.CmovMovesWhenNonZero : Prop :=
  EncodedAs 0 (fun w => .cmov (fieldA w) (fieldB w) (fieldC w)) ∧
  ∀ (a b c : Reg) (s : State), ∃ t, exec (.cmov a b c) s = .next t ∧
    ((s.reg c).toNat ≠ 0 → t.reg a = s.reg b) ∧ ((s.reg c).toNat = 0 → t.reg a = s.reg a) ∧ WritesOnlyReg a s t

/-- LOADI (41_move_and_immediate.md R141): zero-extended, the old value wholly replaced, bits [31:25] zero. -/
def Obligations.LoadiWritesTheZeroExtendedImmediate : Prop :=
  EncodedAs 13 (fun w => .loadi (immA w) (immField w)) ∧
  ∀ (a : Reg) (imm : BitVec 25) (s : State), ∃ t, exec (.loadi a imm) s = .next t ∧
    (t.reg a).toNat = imm.toNat ∧ WritesOnlyReg a s t

/-! ## Arithmetic and logic -/

/-- ADD and MUL (43_arithmetic_logic.md R170, R171). -/
def Obligations.AddAndMulWrap : Prop :=
  EncodedAs 3 (fun w => .add (fieldA w) (fieldB w) (fieldC w)) ∧
  EncodedAs 4 (fun w => .mul (fieldA w) (fieldB w) (fieldC w)) ∧
  ∀ (a b c : Reg) (s : State),
    (∃ t, exec (.add a b c) s = .next t ∧ (t.reg a).toNat = ((s.reg b).toNat + (s.reg c).toNat) % 2 ^ 32 ∧
      WritesOnlyReg a s t) ∧
    (∃ t, exec (.mul a b c) s = .next t ∧ (t.reg a).toNat = ((s.reg b).toNat * (s.reg c).toNat) % 2 ^ 32 ∧
      WritesOnlyReg a s t)

/-- DIV with a divisor that is not 0 (43_arithmetic_logic.md R172). -/
def Obligations.DivIsUnsignedFloor : Prop :=
  EncodedAs 5 (fun w => .div (fieldA w) (fieldB w) (fieldC w)) ∧
  ∀ (a b c : Reg) (s : State), (s.reg c).toNat ≠ 0 → ∃ t, exec (.div a b c) s = .next t ∧
    (t.reg a).toNat = (s.reg b).toNat / (s.reg c).toNat ∧ WritesOnlyReg a s t

/-- DIV takes `DivideByZero` exactly when the divisor is 0; no register is mutated and no further instruction executes
(60_exceptions.md R213; the cause code is the spec's own decision D8, and that a step of an aborted core answers the same
state is log entry 7). -/
def Obligations.DivideByZeroAborts : Prop :=
  ∀ (a b c : Reg) (s : State), s.run = .running → ∃ t, exec (.div a b c) s = .next t ∧
    (t.run = .aborted ∧ t.cause = some .divideByZero ↔ (s.reg c).toNat = 0) ∧
    ((s.reg c).toNat = 0 → AllRegsSame s t ∧ ∀ k, Host.Core.run Sys2Proof.core k t = .next t)

/-- NAND (43_arithmetic_logic.md R173): bit by bit, all 32 bits. -/
def Obligations.NandComplementsTheConjunction : Prop :=
  EncodedAs 6 (fun w => .nand (fieldA w) (fieldB w) (fieldC w)) ∧
  ∀ (a b c : Reg) (s : State), ∃ t, exec (.nand a b c) s = .next t ∧
    (∀ k, k < 32 → (t.reg a).getLsbD k = !((s.reg b).getLsbD k && (s.reg c).getLsbD k)) ∧ WritesOnlyReg a s t

/-- One register as both sources and destination (43_arithmetic_logic.md R175, which the spec derives). -/
def Obligations.SameRegisterIsReadBeforeWritten : Prop :=
  ∀ (r : Reg) (s : State),
    (∃ t, exec (.add r r r) s = .next t ∧ (t.reg r).toNat = 2 * (s.reg r).toNat % 2 ^ 32) ∧
    (∃ t, exec (.mul r r r) s = .next t ∧ (t.reg r).toNat = (s.reg r).toNat ^ 2 % 2 ^ 32) ∧
    (∃ t, exec (.nand r r r) s = .next t ∧ (t.reg r).toNat = 2 ^ 32 - 1 - (s.reg r).toNat) ∧
    ((s.reg r).toNat ≠ 0 → ∃ t, exec (.div r r r) s = .next t ∧ (t.reg r).toNat = 1)

/-! ## Segment memory -/

/-- SLOAD of a live id and an offset below the length (42_segment_memory.md R151). -/
def Obligations.SloadReadsTheAddressedWord : Prop :=
  EncodedAs 1 (fun w => .sload (fieldA w) (fieldB w) (fieldC w)) ∧
  ∀ (a b c : Reg) (s : State) (g : Segment), s.mem.segment (s.regNat b) = some g → s.regNat c < g.length →
    ∃ t, exec (.sload a b c) s = .next t ∧ g.words[s.regNat c]? = some (t.reg a) ∧ WritesOnlyReg a s t

/-- SSTORE of a live id and an offset below the length (42_segment_memory.md R152): that word reads as `x[c]`, every
other word of every segment as before, and no length, liveness or free-stack entry changes (20_memory.md R56). -/
def Obligations.SstoreWritesTheAddressedWord : Prop :=
  EncodedAs 2 (fun w => .sstore (fieldA w) (fieldB w) (fieldC w)) ∧
  ∀ (a b c : Reg) (s : State), StateInv s → s.mem.live (s.regNat a) = true → s.regNat b < s.mem.len (s.regNat a) →
    ∃ t, exec (.sstore a b c) s = .next t ∧
      t.mem.read (storeAddress a b s).1 (storeAddress a b s).2 = .ok (s.reg c) ∧
      (∀ id off, (id, off) ≠ storeAddress a b s → t.mem.read id off = s.mem.read id off) ∧
      (∀ id, t.mem.live id = s.mem.live id ∧ t.mem.len id = s.mem.len id) ∧
      t.mem.free = s.mem.free ∧ t.mem.segs.length = s.mem.segs.length ∧ OnlyMemoryChanged s t

/-- SLOAD and SSTORE on an id that is not live, whatever the offset, and on an offset not below the length
(60_exceptions.md R215, R216, R220; the faults are the spec's own decisions D6, D7 and D9, log entry 14). -/
def Obligations.BadAddressAborts : Prop :=
  ∀ (a b c : Reg) (s : State),
    (s.mem.live (s.regNat b) = false → ∃ t, exec (.sload a b c) s = .next t ∧ FaultTaken .segmentIdFault s t) ∧
    (s.mem.live (s.regNat b) = true → s.mem.len (s.regNat b) ≤ s.regNat c →
      ∃ t, exec (.sload a b c) s = .next t ∧ FaultTaken .offsetFault s t) ∧
    (s.mem.live (s.regNat a) = false → ∃ t, exec (.sstore a b c) s = .next t ∧ FaultTaken .segmentIdFault s t) ∧
    (s.mem.live (s.regNat a) = true → s.mem.len (s.regNat a) ≤ s.regNat b →
      ∃ t, exec (.sstore a b c) s = .next t ∧ FaultTaken .offsetFault s t)

/-- MAP where storage and an id are to be had (42_segment_memory.md R153, 20_memory.md R57): the id is the top of the
free stack, or the table's length where the stack is empty; it is not 0 and was not live; the new segment has `x[c]`
words, all zero; no other segment changes. -/
def Obligations.MapMakesAZeroedSegment : Prop :=
  EncodedAs 8 (fun w => .map (fieldB w) (fieldC w)) ∧
  ∀ (b c : Reg) (s : State), StateInv s → s.allocOK (s.regNat c) = true →
    (s.mem.free ≠ [] ∨ s.mem.segs.length < s.cfg.maxIds) →
    ∃ t, exec (.map b c) s = .next t ∧
      ((s.mem.free = (t.reg b).toNat :: t.mem.free ∧ t.mem.segs.length = s.mem.segs.length) ∨
       (s.mem.free = [] ∧ t.mem.free = [] ∧ (t.reg b).toNat = s.mem.segs.length ∧
        t.mem.segs.length = s.mem.segs.length + 1)) ∧
      (t.reg b).toNat ≠ 0 ∧ s.mem.live (t.reg b).toNat = false ∧
      (∃ g, t.mem.segment (t.reg b).toNat = some g ∧ g.words = List.replicate (s.regNat c) 0#32) ∧
      (∀ id, id ≠ (t.reg b).toNat → t.mem.live id = s.mem.live id ∧ t.mem.len id = s.mem.len id ∧
        ∀ off, t.mem.read id off = s.mem.read id off) ∧
      OtherRegsSame b s t ∧ PcAdvanced s t ∧ SameStatus s t ∧ SameHost s t

/-- MAP where `AllocOK` is false, or the free stack is empty and the table is full (42_segment_memory.md R153,
60_exceptions.md R218; the bound and what the fault leaves are the spec's own decisions D4, D5, D7, log entries 3, 4
and 14). -/
def Obligations.MapWithoutResourcesAborts : Prop :=
  ∀ (b c : Reg) (s : State),
    (s.allocOK (s.regNat c) = false ∨ (s.mem.free = [] ∧ s.cfg.maxIds ≤ s.mem.segs.length)) →
    ∃ t, exec (.map b c) s = .next t ∧ FaultTaken .resourceFault s t

/-- UNMAP of a live id other than 0 (42_segment_memory.md R154, 20_memory.md R58): the slot is a tombstone, no word of it
can be read, the id is pushed, the table keeps its length, no register and no other segment changes. -/
def Obligations.UnmapReleasesTheSegment : Prop :=
  EncodedAs 9 (fun w => .unmap (fieldC w)) ∧
  ∀ (c : Reg) (s : State), s.regNat c ≠ 0 → s.mem.live (s.regNat c) = true →
    ∃ t, exec (.unmap c) s = .next t ∧
      t.mem.segs[s.regNat c]? = some .tomb ∧ t.mem.free = s.regNat c :: s.mem.free ∧
      t.mem.segs.length = s.mem.segs.length ∧
      (∀ off, t.mem.read (s.regNat c) off = .error .segmentIdFault) ∧
      (∀ id, id ≠ s.regNat c → t.mem.live id = s.mem.live id ∧ t.mem.len id = s.mem.len id ∧
        ∀ off, t.mem.read id off = s.mem.read id off) ∧
      OnlyMemoryChanged s t

/-- UNMAP of id 0 or of an id that is not live (60_exceptions.md R217; the fault is the spec's own decisions D6 and D7,
90_conflicts.md C4, log entry 14). -/
def Obligations.BadUnmapAborts : Prop :=
  ∀ (c : Reg) (s : State), (s.regNat c = 0 ∨ s.mem.live (s.regNat c) = false) →
    ∃ t, exec (.unmap c) s = .next t ∧ FaultTaken .unmapFault s t

/-- MAP, then any store, then UNMAP of the id, then MAP again, of any size: the same id comes back, every word of the
new segment is zero, whatever was stored, and so is what an SLOAD from it gives (42_segment_memory.md R155, 20_memory.md R62). -/
def Obligations.MapAfterUnmapReusesTheIdZeroed : Prop :=
  ∀ (b c a' b' c' d e f : Reg) (s t u v z : State), StateInv s → s.run = .running →
    exec (.map b c) s = .next t → t.run = .running →
    exec (.sstore a' b' c') t = .next u → u.run = .running →
    u.reg d = t.reg b → exec (.unmap d) u = .next v → v.run = .running →
    exec (.map e f) v = .next z → z.run = .running →
    z.reg e = t.reg b ∧
    (∃ g, z.mem.segment (t.reg b).toNat = some g ∧ g.words = List.replicate (v.regNat f) 0#32) ∧
    ∀ (p q : Reg) (y : State), exec (.sload p e q) z = .next y → y.run = .running → y.reg p = 0#32

/-! ## Control -/

/-- HALT (40_execution_cycle.md R122, 44_control.md R190): the run state is `Halted`, `pc` stays, nothing else changes;
a word of opcode 7 does this whatever its other bits are. That no step is taken afterwards is `TerminalStatesStay`. -/
def Obligations.HaltStopsTheRun : Prop :=
  EncodedAs 7 (fun _ => .halt) ∧
  ∀ s : State, ∃ t, exec .halt s = .next t ∧ t.run = .halted ∧ t.pc = s.pc ∧ t.cause = s.cause ∧ AllRegsSame s t ∧
    SameMemory s t ∧ SameHost s t ∧
    ∀ w, s.run = .running → s.mem.read 0 s.pc.toNat = .ok w → w.toNat / 2 ^ 28 = 7 → step s = .next t

/-- LOADPROG with `x[b] = 0` is a jump (44_control.md R192, 95_test_vectors.md S5): only `pc` changes. -/
def Obligations.LoadprogJumps : Prop :=
  ∀ (b c : Reg) (s : State), (s.reg b).toNat = 0 →
    ∃ t, exec (.loadprog b c) s = .next t ∧ t.pc = s.reg c ∧ AllRegsSame s t ∧ SameStatus s t ∧ SameMemory s t ∧
      SameHost s t

/-- LOADPROG with `x[b]` a live id other than 0 and storage to be had (44_control.md R192, 20_memory.md R59): segment 0
is a copy of it, `x[b]` is 0, `pc` is the old `x[c]`, the source and every other segment are as before. -/
def Obligations.LoadprogCopiesTheSource : Prop :=
  EncodedAs 12 (fun w => .loadprog (fieldB w) (fieldC w)) ∧
  ∀ (b c : Reg) (s : State), (s.reg b).toNat ≠ 0 → s.mem.live (s.regNat b) = true →
    s.allocOK (s.mem.len (s.regNat b)) = true →
    ∃ t, exec (.loadprog b c) s = .next t ∧ t.pc = s.reg c ∧ (t.reg b).toNat = 0 ∧ OtherRegsSame b s t ∧
      t.mem.live 0 = true ∧ t.mem.len 0 = s.mem.len (s.regNat b) ∧
      (∀ off, t.mem.read 0 off = s.mem.read (s.regNat b) off) ∧
      (∀ id, id ≠ 0 → t.mem.live id = s.mem.live id ∧ t.mem.len id = s.mem.len id ∧
        ∀ off, t.mem.read id off = s.mem.read id off) ∧
      t.mem.free = s.mem.free ∧ t.mem.segs.length = s.mem.segs.length ∧ SameStatus s t ∧ SameHost s t

/-- LOADPROG with `x[b]` not 0 and not live, or with no storage for the copy (44_control.md R192, 60_exceptions.md R215,
R218; the faults are the spec's own decisions D5, D6, D7, log entries 3 and 14). -/
def Obligations.BadLoadprogAborts : Prop :=
  ∀ (b c : Reg) (s : State), (s.reg b).toNat ≠ 0 →
    (s.mem.live (s.regNat b) = false → ∃ t, exec (.loadprog b c) s = .next t ∧ FaultTaken .segmentIdFault s t) ∧
    (s.mem.live (s.regNat b) = true → s.allocOK (s.mem.len (s.regNat b)) = false →
      ∃ t, exec (.loadprog b c) s = .next t ∧ FaultTaken .resourceFault s t)

/-- A store into segment 0 at the next index is the instruction the next step runs, with nothing between
(20_memory.md R73, 70_reset_and_hazards.md R259). -/
def Obligations.StoreIsSeenByTheNextFetch : Prop :=
  ∀ (a b c : Reg) (s t : State) (w : Word) (i : Instr), StateInv s → s.run = .running →
    s.mem.read 0 s.pc.toNat = .ok w → decode w = .ok (.sstore a b c) →
    storeAddress a b s = (0, s.pc.toNat + 1) → s.pc.toNat + 1 < s.mem.len 0 →
    decode (s.reg c) = .ok i → step s = .next t → step t = exec i t

/-- After a copying LOADPROG the next step runs the word of the source at index `x[c]`, or takes `FetchFault` where the
source has no such word (20_memory.md R74, 44_control.md R194). -/
def Obligations.LoadedProgramRunsNext : Prop :=
  ∀ (b c : Reg) (s t : State) (g : Segment), s.run = .running → (s.reg b).toNat ≠ 0 →
    s.mem.segment (s.regNat b) = some g → exec (.loadprog b c) s = .next t → t.run = .running →
    (∀ w i, g.words[s.regNat c]? = some w → decode w = .ok i → step t = exec i t) ∧
    (g.words[s.regNat c]? = none → ∃ u, step t = .next u ∧ FaultTaken .fetchFault t u)

/-! ## Console -/

/-- OUT (45_io.md R200): a value of at most 255 is emitted as one byte, a greater one emits nothing and is no fault. -/
def Obligations.OutEmitsOneByteOrNothing : Prop :=
  EncodedAs 10 (fun w => .out (fieldC w)) ∧
  ∀ (c : Reg) (s : State), ∃ t, exec (.out c) s = .next t ∧
    ((s.reg c).toNat ≤ 255 → ∃ b : Byte, b.toNat = (s.reg c).toNat ∧ t.output = s.output ++ [b]) ∧
    (255 < (s.reg c).toNat → t.output = s.output) ∧
    AllRegsSame s t ∧ PcAdvanced s t ∧ SameStatus s t ∧ SameMemory s t ∧
    t.received = s.received ∧ t.input = s.input ∧ t.cfg = s.cfg ∧ t.asking = s.asking

/-- IN where the host has an answer (45_io.md R201): a byte is zero-extended, end-of-stream is 0xFFFFFFFF; exactly one
answer is taken. -/
def Obligations.InWritesTheHostsAnswer : Prop :=
  EncodedAs 11 (fun w => .inp (fieldC w)) ∧
  ∀ (c : Reg) (s : State) (a : Answer),
    (s.input.answers.head? = some a ∨ (s.input.answers = [] ∧ s.input.thereafter = some a)) →
    ∃ t, exec (.inp c) s = .next t ∧
      (∀ b : Byte, a = .byte b → (t.reg c).toNat = b.toNat) ∧
      (a = .eos → (t.reg c).toNat = 2 ^ 32 - 1) ∧
      t.received = s.received ++ [a] ∧
      t.input.answers = s.input.answers.tail ∧ t.input.thereafter = s.input.thereafter ∧
      OtherRegsSame c s t ∧ PcAdvanced s t ∧ SameStatus s t ∧ SameMemory s t ∧
      t.output = s.output ∧ t.cfg = s.cfg ∧ t.asking = false

/-- IN while the host has not answered (45_io.md R205, 40_execution_cycle.md R127): the request is outstanding and nothing
else changes, however long the wait, and once the host answers the step completes with that answer to that request (that
a waiting step answers a next state is log entry 6, the record of the request log entry 12). -/
def Obligations.InWaitsForTheHost : Prop :=
  ∀ s : State, Waiting s → ∃ u, step s = .next u ∧ OnlyAsked s u ∧ (s.asking = true → u = s) ∧ step u = .next u ∧
    ∀ (w : Word) (c : Reg) (a : Answer), s.mem.read 0 s.pc.toNat = .ok w → decode w = .ok (.inp c) →
      ∃ t, step (u.hostAnswers a) = .next t ∧ t.reg c = answerWord a ∧ OtherRegsSame c s t ∧ PcAdvanced s t ∧
        t.received = s.received ++ [a] ∧ t.asking = false ∧ t.input = s.input ∧ SameStatus s t ∧ SameMemory s t ∧
        t.output = s.output ∧ t.cfg = s.cfg

/-! ## The status interface -/

/-- What the host derives from the run state (60_exceptions.md R228): status 0 after HALT, an abnormal, non-zero status
and a cause after a fault, none while running. The abnormal value is a free value (log entry 13). -/
def Obligations.ExitStatusFollowsTheRunState : Prop :=
  ∀ s : State, StateInv s →
    (s.exitStatus = none ↔ s.run = .running) ∧ (s.exitStatus = some 0 ↔ s.run = .halted) ∧
    ((∃ n, n ≠ 0 ∧ s.exitStatus = some n) ↔ s.run = .aborted) ∧
    ((∃ c, s.status = (.aborted, some c)) ↔ s.run = .aborted)
end

