-- ==== Sys2Proof/Laws/Decode.lean ====
section
/-! SUPPORT. The decoder's fields and the encoder's words as numbers (30_encoding.md rules R91 to R93). -/

namespace Sys2Proof

theorem toNat_append_add {n m : Nat} (u : BitVec n) (v : BitVec m) :
    (u ++ v).toNat = u.toNat * 2 ^ m + v.toNat := by
  rw [BitVec.toNat_append, ← Nat.shiftLeft_add_eq_or_of_lt v.isLt, Nat.shiftLeft_eq]

@[simp] theorem toNat_regBits (r : Reg) : (regBits r).toNat = r.val := by
  have := r.isLt
  simp [regBits]

theorem toNat_standardWord (op : BitVec 4) (a b c : Reg) :
    (standardWord op a b c).toNat = op.toNat * 2 ^ 28 + a.val * 64 + b.val * 8 + c.val := by
  simp only [standardWord, toNat_append_add, toNat_regBits, BitVec.toNat_ofNat]
  omega

theorem toNat_immediateWord (op : BitVec 4) (a : Reg) (imm : BitVec 25) :
    (immediateWord op a imm).toNat = op.toNat * 2 ^ 28 + a.val * 2 ^ 25 + imm.toNat := by
  simp only [immediateWord, toNat_append_add, toNat_regBits]
  omega

theorem toNat_opcode (w : Word) : (opcode w).toNat = w.toNat / 2 ^ 28 := by
  have := w.isLt
  simp [opcode, BitVec.extractLsb, BitVec.extractLsb', Nat.shiftRight_eq_div_pow]
  omega

theorem val_fieldA (w : Word) : (fieldA w).val = w.toNat / 2 ^ 6 % 8 := by
  simp [fieldA, regOf, BitVec.extractLsb, BitVec.extractLsb', Nat.shiftRight_eq_div_pow]

theorem val_fieldB (w : Word) : (fieldB w).val = w.toNat / 2 ^ 3 % 8 := by
  simp [fieldB, regOf, BitVec.extractLsb, BitVec.extractLsb', Nat.shiftRight_eq_div_pow]

theorem val_fieldC (w : Word) : (fieldC w).val = w.toNat % 8 := by
  simp [fieldC, regOf, BitVec.extractLsb, BitVec.extractLsb']

theorem val_immA (w : Word) : (immA w).val = w.toNat / 2 ^ 25 % 8 := by
  simp [immA, regOf, BitVec.extractLsb, BitVec.extractLsb', Nat.shiftRight_eq_div_pow]

theorem toNat_immField (w : Word) : (immField w).toNat = w.toNat % 2 ^ 25 := by
  simp [immField, BitVec.extractLsb, BitVec.extractLsb', Nat.shiftRight_eq_div_pow]

/-! ## The fields of an encoder's word -/

section
variable (op : BitVec 4) (a b c : Reg) (imm : BitVec 25)

theorem opcode_standardWord : opcode (standardWord op a b c) = op := by
  apply BitVec.eq_of_toNat_eq
  rw [toNat_opcode, toNat_standardWord]
  omega

theorem fieldA_standardWord : fieldA (standardWord op a b c) = a := by
  apply Fin.ext
  rw [val_fieldA, toNat_standardWord]
  omega

theorem fieldB_standardWord : fieldB (standardWord op a b c) = b := by
  apply Fin.ext
  rw [val_fieldB, toNat_standardWord]
  omega

theorem fieldC_standardWord : fieldC (standardWord op a b c) = c := by
  apply Fin.ext
  rw [val_fieldC, toNat_standardWord]
  omega

theorem opcode_immediateWord : opcode (immediateWord op a imm) = op := by
  apply BitVec.eq_of_toNat_eq
  rw [toNat_opcode, toNat_immediateWord]
  omega

theorem immA_immediateWord : immA (immediateWord op a imm) = a := by
  apply Fin.ext
  rw [val_immA, toNat_immediateWord]
  omega

theorem immField_immediateWord : immField (immediateWord op a imm) = imm := by
  apply BitVec.eq_of_toNat_eq
  rw [toNat_immField, toNat_immediateWord]
  omega

end

/-- The mask and match test of 30_encoding.md R96 is the test of the opcode field. -/
theorem masked_eq_iff (w : Word) (n : Nat) (h : n < 16) :
    w &&& 0xF0000000#32 = BitVec.ofNat 32 (n * 2 ^ 28) ↔ (opcode w).toNat = n := by
  have hm : w &&& 0xF0000000#32 = (opcode w ++ 0#28 : BitVec 32) := by
    apply BitVec.eq_of_getLsbD_eq
    intro i hi
    simp only [opcode, BitVec.getLsbD_and, BitVec.getLsbD_append, BitVec.getLsbD_extractLsb]
    interval_cases i <;> simp
  rw [hm, ← BitVec.toNat_inj, toNat_append_add]
  simp only [BitVec.toNat_ofNat]
  omega

end Sys2Proof
end

