-- ==== Sys2Proof/Laws/Memory.lean ====
section
/-! SUPPORT. The segment manager's laws: read after write, and that every memory operation keeps the canonical form. -/

namespace Sys2Proof.Machine

/-! ## Cells -/

theorem cellsWf_cons {n k : Nat} {v : Word} {t : List (Nat × Word)} :
    cellsWf n ((k, v) :: t) = true ↔ k < n ∧ v ≠ 0#32 ∧ (∀ e ∈ t, k < e.1) ∧ cellsWf n t = true := by
  simp [cellsWf, and_assoc]

theorem readCells_eq_zero {t : List (Nat × Word)} {a : Nat} (h : ∀ e ∈ t, e.1 ≠ a) : readCells t a = 0#32 := by
  induction t with
  | nil => rfl
  | cons e t ih =>
    simp only [List.mem_cons, forall_eq_or_imp] at h
    simp [readCells, h.1, ih h.2]

theorem readCells_writeCells_ne (t : List (Nat × Word)) (v : Word) {a b : Nat} (h : b ≠ a) :
    readCells (writeCells t a v) b = readCells t b := by
  induction t with
  | nil => by_cases hv : v = 0#32 <;> simp [writeCells, readCells, hv, h.symm]
  | cons e t ih =>
    obtain ⟨k, u⟩ := e
    by_cases h1 : a < k
    · by_cases hv : v = 0#32 <;> simp [writeCells, readCells, h1, hv, h.symm]
    · by_cases h2 : k = a
      · subst h2
        by_cases hv : v = 0#32 <;> simp [writeCells, readCells, hv, h.symm]
      · simp [writeCells, readCells, h1, h2, ih]

theorem readCells_writeCells_same {n : Nat} {t : List (Nat × Word)} (hw : cellsWf n t = true) (a : Nat) (v : Word) :
    readCells (writeCells t a v) a = v := by
  induction t with
  | nil => by_cases hv : v = 0#32 <;> simp [writeCells, readCells, hv]
  | cons e t ih =>
    obtain ⟨k, u⟩ := e
    obtain ⟨-, -, hlt, ht⟩ := cellsWf_cons.1 hw
    by_cases h1 : a < k
    · by_cases hv : v = 0#32
      · have hz : readCells t a = 0#32 := readCells_eq_zero fun e he => by have := hlt e he; omega
        simp [writeCells, readCells, h1, hv, hz, Nat.ne_of_gt h1]
      · simp [writeCells, readCells, h1, hv]
    · by_cases h2 : k = a
      · subst h2
        by_cases hv : v = 0#32
        · have hz : readCells t k = 0#32 := readCells_eq_zero fun e he => by have := hlt e he; omega
          simp [writeCells, hv, hz]
        · simp [writeCells, readCells, hv]
      · simp [writeCells, readCells, h1, h2, ih ht]

theorem mem_writeCells {t : List (Nat × Word)} {a : Nat} {v : Word} {e : Nat × Word}
    (h : e ∈ writeCells t a v) : e = (a, v) ∨ e ∈ t := by
  induction t with
  | nil => by_cases hv : v = 0#32 <;> simp_all [writeCells]
  | cons f t ih =>
    obtain ⟨k, u⟩ := f
    simp only [writeCells] at h
    split at h
    · split at h
      · exact .inr h
      · simpa using h
    · split at h
      · split at h
        · exact .inr (List.mem_cons_of_mem _ h)
        · rcases List.mem_cons.1 h with h | h
          · exact .inl h
          · exact .inr (List.mem_cons_of_mem _ h)
      · rcases List.mem_cons.1 h with h | h
        · exact .inr (h ▸ List.mem_cons_self)
        · exact (ih h).imp id (List.mem_cons_of_mem _)

theorem cellsWf_writeCells {n : Nat} {t : List (Nat × Word)} (hw : cellsWf n t = true) {a : Nat} (ha : a < n)
    (v : Word) : cellsWf n (writeCells t a v) = true := by
  induction t with
  | nil => by_cases hv : v = 0#32 <;> simp [writeCells, cellsWf, hv, ha]
  | cons e t ih =>
    obtain ⟨k, u⟩ := e
    obtain ⟨hk, hu, hlt, ht⟩ := cellsWf_cons.1 hw
    by_cases h1 : a < k
    · by_cases hv : v = 0#32
      · simpa [writeCells, h1, hv] using hw
      · have hall : ∀ e ∈ (k, u) :: t, a < e.1 := by
          intro e he
          rcases List.mem_cons.1 he with rfl | he
          · exact h1
          · exact lt_trans h1 (hlt e he)
        simpa [writeCells, h1, hv] using cellsWf_cons.2 ⟨ha, hv, hall, hw⟩
    · by_cases h2 : k = a
      · subst h2
        by_cases hv : v = 0#32
        · simpa [writeCells, hv] using ht
        · simpa [writeCells, hv] using cellsWf_cons.2 ⟨ha, hv, hlt, ht⟩
      · have hall : ∀ e ∈ writeCells t a v, k < e.1 := by
          intro e he
          rcases mem_writeCells he with rfl | he
          · show k < a; omega
          · exact hlt e he
        simpa [writeCells, h1, h2] using cellsWf_cons.2 ⟨hk, hu, hall, ih ht⟩

theorem cellsFrom_ge (ws : List Word) (k : Nat) : ∀ e ∈ cellsFrom k ws, k ≤ e.1 := by
  induction ws generalizing k with
  | nil => simp [cellsFrom]
  | cons w ws ih =>
    have step : ∀ e ∈ cellsFrom (k + 1) ws, k ≤ e.1 := fun e he => by have := ih (k + 1) e he; omega
    by_cases hw : w = 0#32
    · simpa [cellsFrom, hw] using step
    · simpa [cellsFrom, hw] using step

theorem cellsWf_cellsFrom (ws : List Word) (k n : Nat) (h : k + ws.length ≤ n) : cellsWf n (cellsFrom k ws) = true := by
  induction ws generalizing k with
  | nil => rfl
  | cons w ws ih =>
    simp only [List.length_cons] at h
    have ht := ih (k + 1) (by omega)
    by_cases hw : w = 0#32
    · simpa [cellsFrom, hw] using ht
    · have hge : ∀ e ∈ cellsFrom (k + 1) ws, k < e.1 := fun e he => by have := cellsFrom_ge ws (k + 1) e he; omega
      simpa [cellsFrom, hw] using cellsWf_cons.2 ⟨by omega, hw, hge, ht⟩

theorem readCells_cellsFrom (ws : List Word) (k i : Nat) (h : i < ws.length) :
    readCells (cellsFrom k ws) (k + i) = ws[i] := by
  induction ws generalizing k i with
  | nil => simp at h
  | cons w ws ih =>
    cases i with
    | zero =>
      by_cases hw : w = 0#32
      · have hz : readCells (cellsFrom (k + 1) ws) k = 0#32 :=
          readCells_eq_zero fun e he => by have := cellsFrom_ge ws (k + 1) e he; omega
        simp [cellsFrom, hw, hz]
      · simp [cellsFrom, readCells, hw]
    | succ i =>
      have hi : i < ws.length := by simpa using h
      have hr := ih (k + 1) i hi
      have hk : k + (i + 1) = k + 1 + i := by omega
      by_cases hw : w = 0#32
      · simpa [cellsFrom, hw, hk] using hr
      · have hne : k ≠ k + 1 + i := by omega
        simpa [cellsFrom, readCells, hw, hk, hne] using hr

/-! ## Segments -/

@[simp] theorem zeros_length (n : Nat) : (Segment.zeros n).length = n := rfl
@[simp] theorem zeros_wf (n : Nat) : (Segment.zeros n).wf = true := rfl
@[simp] theorem ofWords_length (ws : List Word) : (Segment.ofWords ws).length = ws.length := rfl

theorem ofWords_wf (ws : List Word) : (Segment.ofWords ws).wf = true :=
  cellsWf_cellsFrom ws 0 ws.length (by omega)

theorem segment_read_zeros (n off : Nat) : (Segment.zeros n).read off = if off < n then some 0#32 else none := rfl

theorem segment_read_ofWords (ws : List Word) (off : Nat) : (Segment.ofWords ws).read off = ws[off]? := by
  by_cases h : off < ws.length
  · have := readCells_cellsFrom ws 0 off h
    rw [Nat.zero_add] at this
    simp [Segment.read, Segment.ofWords, h, this]
  · simp [Segment.read, Segment.ofWords, h]

theorem segment_read_eq_some {g : Segment} {off : Nat} {v : Word} :
    g.read off = some v ↔ off < g.length ∧ readCells g.cells off = v := by
  simp [Segment.read]

theorem segment_read_eq_none {g : Segment} {off : Nat} : g.read off = none ↔ g.length ≤ off := by
  simp [Segment.read]

/-- What a write to a segment does: the length stays, that word is replaced, every other word is unchanged, the form
is kept. -/
theorem segment_write_spec {g g' : Segment} {off : Nat} {v : Word} (h : g.write off v = some g') :
    off < g.length ∧ g'.length = g.length ∧ (∀ o, o ≠ off → g'.read o = g.read o) ∧
      (g.wf = true → g'.read off = some v ∧ g'.wf = true) := by
  unfold Segment.write at h
  split at h
  · rename_i hlt
    cases h
    refine ⟨hlt, rfl, fun o ho => ?_, fun hw => ⟨?_, ?_⟩⟩
    · simp [Segment.read, readCells_writeCells_ne _ _ ho]
    · simpa [Segment.read, hlt] using readCells_writeCells_same hw off v
    · exact cellsWf_writeCells hw hlt v
  · cases h

theorem segment_write_of_lt {g : Segment} {off : Nat} (v : Word) (h : off < g.length) :
    g.write off v = some { g with cells := writeCells g.cells off v } := by
  simp [Segment.write, h]

theorem segment_write_eq_none {g : Segment} {off : Nat} {v : Word} : g.write off v = none ↔ g.length ≤ off := by
  simp [Segment.write]

/-! ## The table -/

theorem memory_segment_eq_some {m : Memory} {id : Nat} {g : Segment} :
    m.segment id = some g ↔ m.segs[id]? = some (.seg g) := by
  unfold Memory.segment
  split
  · rename_i g' h
    simp [h]
  · rename_i h
    simp only [reduceCtorEq, false_iff]
    intro h'
    exact h g h'

theorem memory_live_iff {m : Memory} {id : Nat} : m.live id = true ↔ ∃ g, m.segment id = some g := by
  simp [Memory.live, Option.isSome_iff_exists]

theorem memory_live_lt {m : Memory} {id : Nat} (h : m.live id = true) : id < m.segs.length := by
  obtain ⟨g, hg⟩ := memory_live_iff.1 h
  exact (List.getElem?_eq_some_iff.1 (memory_segment_eq_some.1 hg)).1

theorem memory_len_of_segment {m : Memory} {id : Nat} {g : Segment} (h : m.segment id = some g) :
    m.len id = g.length := by
  simp [Memory.len, h]

@[simp] theorem setSlot_free (m : Memory) (id : Nat) (e : Slot) : (m.setSlot id e).free = m.free := rfl
@[simp] theorem setSlot_segs (m : Memory) (id : Nat) (e : Slot) : (m.setSlot id e).segs = m.segs.set id e := rfl

theorem segment_setSlot_ne (m : Memory) (e : Slot) {id j : Nat} (h : j ≠ id) :
    (m.setSlot id e).segment j = m.segment j := by
  simp [Memory.segment, h.symm]

theorem segment_setSlot_same (m : Memory) (g : Segment) {id : Nat} (h : id < m.segs.length) :
    (m.setSlot id (.seg g)).segment id = some g := by
  simp [Memory.segment, h]

theorem segment_setSlot_tomb (m : Memory) (id : Nat) : (m.setSlot id .tomb).segment id = none := by
  simp only [Memory.segment, setSlot_segs, List.getElem?_set_self']
  cases m.segs[id]? <;> rfl

theorem memory_wf_iff {m : Memory} : m.wf = true ↔ ∀ e ∈ m.segs, e.wf = true := by
  simp [Memory.wf]

theorem segment_wf_of_memory {m : Memory} (h : m.wf = true) {id : Nat} {g : Segment} (hg : m.segment id = some g) :
    g.wf = true :=
  memory_wf_iff.1 h (.seg g) (List.mem_of_getElem? (memory_segment_eq_some.1 hg))

theorem setSlot_wf {m : Memory} (h : m.wf = true) (id : Nat) {e : Slot} (he : e.wf = true) :
    (m.setSlot id e).wf = true := by
  refine memory_wf_iff.2 fun f hf => ?_
  rcases List.mem_or_eq_of_mem_set hf with hf | rfl
  · exact memory_wf_iff.1 h f hf
  · exact he

/-- Two memories with the same segment under an id read alike there. -/
theorem memory_read_congr {m m' : Memory} {id : Nat} (h : m'.segment id = m.segment id) (off : Nat) :
    m'.read id off = m.read id off := by
  simp [Memory.read, h]

theorem memory_read_of_segment {m : Memory} {id : Nat} {g : Segment} (h : m.segment id = some g) (off : Nat) :
    m.read id off = if off < g.length then .ok (readCells g.cells off) else .error .offsetFault := by
  unfold Memory.read Segment.read
  rw [h]
  by_cases ho : off < g.length <;> simp [ho]

theorem memory_read_eq_ok {m : Memory} {id off : Nat} {v : Word} :
    m.read id off = .ok v ↔ ∃ g, m.segment id = some g ∧ g.read off = some v := by
  unfold Memory.read
  cases hg : m.segment id with
  | none => simp
  | some g => cases hr : g.read off <;> simp [hr]

end Sys2Proof.Machine
end

