-- ==== Sys2Proof/Laws/State.lean ====
section
/-! SUPPORT. One lemma per field per update of State, and the laws of register reads. -/

namespace Sys2Proof.Machine

variable (s : State)

@[simp] theorem setReg_x (i : Reg) (v : Word) : (s.setReg i v).x = s.x.set i v := rfl
@[simp] theorem setReg_pc (i : Reg) (v : Word) : (s.setReg i v).pc = s.pc := rfl
@[simp] theorem setReg_run (i : Reg) (v : Word) : (s.setReg i v).run = s.run := rfl
@[simp] theorem setReg_cause (i : Reg) (v : Word) : (s.setReg i v).cause = s.cause := rfl
@[simp] theorem setReg_mem (i : Reg) (v : Word) : (s.setReg i v).mem = s.mem := rfl
@[simp] theorem setReg_output (i : Reg) (v : Word) : (s.setReg i v).output = s.output := rfl
@[simp] theorem setReg_received (i : Reg) (v : Word) : (s.setReg i v).received = s.received := rfl
@[simp] theorem setReg_asking (i : Reg) (v : Word) : (s.setReg i v).asking = s.asking := rfl
@[simp] theorem setReg_input (i : Reg) (v : Word) : (s.setReg i v).input = s.input := rfl
@[simp] theorem setReg_cfg (i : Reg) (v : Word) : (s.setReg i v).cfg = s.cfg := rfl

@[simp] theorem setPc_x (t : Word) : (s.setPc t).x = s.x := rfl
@[simp] theorem setPc_pc (t : Word) : (s.setPc t).pc = t := rfl
@[simp] theorem setPc_run (t : Word) : (s.setPc t).run = s.run := rfl
@[simp] theorem setPc_cause (t : Word) : (s.setPc t).cause = s.cause := rfl
@[simp] theorem setPc_mem (t : Word) : (s.setPc t).mem = s.mem := rfl
@[simp] theorem setPc_output (t : Word) : (s.setPc t).output = s.output := rfl
@[simp] theorem setPc_received (t : Word) : (s.setPc t).received = s.received := rfl
@[simp] theorem setPc_asking (t : Word) : (s.setPc t).asking = s.asking := rfl
@[simp] theorem setPc_input (t : Word) : (s.setPc t).input = s.input := rfl
@[simp] theorem setPc_cfg (t : Word) : (s.setPc t).cfg = s.cfg := rfl

@[simp] theorem advance_x : (s.advance).x = s.x := rfl
@[simp] theorem advance_pc : (s.advance).pc = s.pc + 1#32 := rfl
@[simp] theorem advance_run : (s.advance).run = s.run := rfl
@[simp] theorem advance_cause : (s.advance).cause = s.cause := rfl
@[simp] theorem advance_mem : (s.advance).mem = s.mem := rfl
@[simp] theorem advance_output : (s.advance).output = s.output := rfl
@[simp] theorem advance_received : (s.advance).received = s.received := rfl
@[simp] theorem advance_asking : (s.advance).asking = s.asking := rfl
@[simp] theorem advance_input : (s.advance).input = s.input := rfl
@[simp] theorem advance_cfg : (s.advance).cfg = s.cfg := rfl

@[simp] theorem halt_x : (s.halt).x = s.x := rfl
@[simp] theorem halt_pc : (s.halt).pc = s.pc := rfl
@[simp] theorem halt_run : (s.halt).run = .halted := rfl
@[simp] theorem halt_cause : (s.halt).cause = s.cause := rfl
@[simp] theorem halt_mem : (s.halt).mem = s.mem := rfl
@[simp] theorem halt_output : (s.halt).output = s.output := rfl
@[simp] theorem halt_received : (s.halt).received = s.received := rfl
@[simp] theorem halt_asking : (s.halt).asking = s.asking := rfl
@[simp] theorem halt_input : (s.halt).input = s.input := rfl
@[simp] theorem halt_cfg : (s.halt).cfg = s.cfg := rfl

@[simp] theorem setMem_x (m : Memory) : (s.setMem m).x = s.x := rfl
@[simp] theorem setMem_pc (m : Memory) : (s.setMem m).pc = s.pc := rfl
@[simp] theorem setMem_run (m : Memory) : (s.setMem m).run = s.run := rfl
@[simp] theorem setMem_cause (m : Memory) : (s.setMem m).cause = s.cause := rfl
@[simp] theorem setMem_mem (m : Memory) : (s.setMem m).mem = m := rfl
@[simp] theorem setMem_output (m : Memory) : (s.setMem m).output = s.output := rfl
@[simp] theorem setMem_received (m : Memory) : (s.setMem m).received = s.received := rfl
@[simp] theorem setMem_asking (m : Memory) : (s.setMem m).asking = s.asking := rfl
@[simp] theorem setMem_input (m : Memory) : (s.setMem m).input = s.input := rfl
@[simp] theorem setMem_cfg (m : Memory) : (s.setMem m).cfg = s.cfg := rfl

@[simp] theorem raise_x (c : Cause) : (s.raise c).x = s.x := rfl
@[simp] theorem raise_pc (c : Cause) : (s.raise c).pc = s.pc := rfl
@[simp] theorem raise_run (c : Cause) : (s.raise c).run = .aborted := rfl
@[simp] theorem raise_cause (c : Cause) : (s.raise c).cause = some c := rfl
@[simp] theorem raise_mem (c : Cause) : (s.raise c).mem = s.mem := rfl
@[simp] theorem raise_output (c : Cause) : (s.raise c).output = s.output := rfl
@[simp] theorem raise_received (c : Cause) : (s.raise c).received = s.received := rfl
@[simp] theorem raise_asking (c : Cause) : (s.raise c).asking = s.asking := rfl
@[simp] theorem raise_input (c : Cause) : (s.raise c).input = s.input := rfl
@[simp] theorem raise_cfg (c : Cause) : (s.raise c).cfg = s.cfg := rfl

@[simp] theorem emit_x (b : Byte) : (s.emit b).x = s.x := rfl
@[simp] theorem emit_pc (b : Byte) : (s.emit b).pc = s.pc := rfl
@[simp] theorem emit_run (b : Byte) : (s.emit b).run = s.run := rfl
@[simp] theorem emit_cause (b : Byte) : (s.emit b).cause = s.cause := rfl
@[simp] theorem emit_mem (b : Byte) : (s.emit b).mem = s.mem := rfl
@[simp] theorem emit_output (b : Byte) : (s.emit b).output = s.output ++ [b] := rfl
@[simp] theorem emit_received (b : Byte) : (s.emit b).received = s.received := rfl
@[simp] theorem emit_asking (b : Byte) : (s.emit b).asking = s.asking := rfl
@[simp] theorem emit_input (b : Byte) : (s.emit b).input = s.input := rfl
@[simp] theorem emit_cfg (b : Byte) : (s.emit b).cfg = s.cfg := rfl

@[simp] theorem take_x (a : Answer) (e : InputEnv) : (s.take a e).x = s.x := rfl
@[simp] theorem take_pc (a : Answer) (e : InputEnv) : (s.take a e).pc = s.pc := rfl
@[simp] theorem take_run (a : Answer) (e : InputEnv) : (s.take a e).run = s.run := rfl
@[simp] theorem take_cause (a : Answer) (e : InputEnv) : (s.take a e).cause = s.cause := rfl
@[simp] theorem take_mem (a : Answer) (e : InputEnv) : (s.take a e).mem = s.mem := rfl
@[simp] theorem take_output (a : Answer) (e : InputEnv) : (s.take a e).output = s.output := rfl
@[simp] theorem take_received (a : Answer) (e : InputEnv) : (s.take a e).received = s.received ++ [a] := rfl
@[simp] theorem take_asking (a : Answer) (e : InputEnv) : (s.take a e).asking = false := rfl
@[simp] theorem take_input (a : Answer) (e : InputEnv) : (s.take a e).input = e := rfl
@[simp] theorem take_cfg (a : Answer) (e : InputEnv) : (s.take a e).cfg = s.cfg := rfl

@[simp] theorem ask_x : (s.ask).x = s.x := rfl
@[simp] theorem ask_pc : (s.ask).pc = s.pc := rfl
@[simp] theorem ask_run : (s.ask).run = s.run := rfl
@[simp] theorem ask_cause : (s.ask).cause = s.cause := rfl
@[simp] theorem ask_mem : (s.ask).mem = s.mem := rfl
@[simp] theorem ask_output : (s.ask).output = s.output := rfl
@[simp] theorem ask_received : (s.ask).received = s.received := rfl
@[simp] theorem ask_input : (s.ask).input = s.input := rfl
@[simp] theorem ask_cfg : (s.ask).cfg = s.cfg := rfl
@[simp] theorem ask_asking : (s.ask).asking = true := rfl
@[simp] theorem ask_ask : s.ask.ask = s.ask := rfl

@[simp] theorem setPc_reg (t : Word) (i : Reg) : (s.setPc t).reg i = s.reg i := rfl
@[simp] theorem advance_reg (i : Reg) : (s.advance).reg i = s.reg i := rfl
@[simp] theorem halt_reg (i : Reg) : (s.halt).reg i = s.reg i := rfl
@[simp] theorem setMem_reg (m : Memory) (i : Reg) : (s.setMem m).reg i = s.reg i := rfl
@[simp] theorem raise_reg (c : Cause) (i : Reg) : (s.raise c).reg i = s.reg i := rfl
@[simp] theorem emit_reg (b : Byte) (i : Reg) : (s.emit b).reg i = s.reg i := rfl
@[simp] theorem ask_reg (i : Reg) : (s.ask).reg i = s.reg i := rfl
@[simp] theorem take_reg (a : Answer) (e : InputEnv) (i : Reg) : (s.take a e).reg i = s.reg i := rfl

theorem reg_setReg (i : Reg) (v : Word) (j : Reg) : (s.setReg i v).reg j = if j = i then v else s.reg j := by
  simp [State.reg, Vector.getElem_set, Fin.ext_iff, eq_comm]

@[simp] theorem reg_setReg_same (i : Reg) (v : Word) : (s.setReg i v).reg i = v := by
  simp [reg_setReg]

@[simp] theorem reg_setReg_ne (i : Reg) (v : Word) {j : Reg} (h : j ≠ i) : (s.setReg i v).reg j = s.reg j := by
  simp [reg_setReg, h]

/-- Asking again while a request is outstanding changes nothing. -/
theorem ask_of_asking (h : s.asking = true) : s.ask = s := by
  cases s; cases h; rfl

theorem advance_pc_toNat : s.advance.pc.toNat = (s.pc.toNat + 1) % 2 ^ 32 := by
  simp [BitVec.toNat_add]

end Sys2Proof.Machine
end

