-- ==== Sys2Proof/Laws/Ops.lean ====
section
/-! SUPPORT. One lemma per shared operation that says once all it can do, and that each keeps the canonical form. -/

namespace Sys2Proof.Machine

variable {s : State} {m m' : Memory} {id off n : Nat} {v : Word} {c : Cause}

/-- Memory at State.reset is in canonical form. -/
theorem reset_mem_wf : State.reset.mem.wf = true := rfl

/-! ## MemRead and MemWrite (20_memory.md R55, R56) -/

theorem memory_read_error (h : m.read id off = .error c) :
    (c = .segmentIdFault ∧ m.segment id = none) ∨
    (c = .offsetFault ∧ ∃ g, m.segment id = some g ∧ g.length ≤ off) := by
  unfold Memory.read at h
  cases hg : m.segment id with
  | none => simp only [hg] at h; cases h; exact .inl ⟨rfl, rfl⟩
  | some g =>
    simp only [hg] at h
    cases hr : g.read off with
    | none => simp only [hr] at h; cases h; exact .inr ⟨rfl, g, rfl, segment_read_eq_none.1 hr⟩
    | some u => simp [hr] at h

theorem memory_write_ok (h : m.write id off v = .ok m') :
    ∃ g g', m.segment id = some g ∧ g.write off v = some g' ∧ m' = m.setSlot id (.seg g') := by
  unfold Memory.write at h
  cases hg : m.segment id with
  | none => simp [hg] at h
  | some g =>
    simp only [hg] at h
    cases hw : g.write off v with
    | none => simp [hw] at h
    | some g' => simp only [hw] at h; cases h; exact ⟨g, g', rfl, hw, rfl⟩

theorem memory_write_error (h : m.write id off v = .error c) :
    (c = .segmentIdFault ∧ m.segment id = none) ∨
    (c = .offsetFault ∧ ∃ g, m.segment id = some g ∧ g.length ≤ off) := by
  unfold Memory.write at h
  cases hg : m.segment id with
  | none => simp only [hg] at h; cases h; exact .inl ⟨rfl, rfl⟩
  | some g =>
    simp only [hg] at h
    cases hw : g.write off v with
    | none => simp only [hw] at h; cases h; exact .inr ⟨rfl, g, rfl, segment_write_eq_none.1 hw⟩
    | some g' => simp [hw] at h

theorem memory_write_wf (hm : m.wf = true) (h : m.write id off v = .ok m') : m'.wf = true := by
  obtain ⟨g, g', hg, hw, rfl⟩ := memory_write_ok h
  exact setSlot_wf hm id ((segment_write_spec hw).2.2.2 (segment_wf_of_memory hm hg)).2

/-! ## SegMap (20_memory.md R57) -/

theorem segMap_ok (h : s.segMap n = .ok (id, m)) :
    s.allocOK n = true ∧
    ((∃ rest, s.mem.free = id :: rest ∧
        m = { s.mem.setSlot id (.seg (Segment.zeros n)) with free := rest }) ∨
     (s.mem.free = [] ∧ s.mem.segs.length < s.cfg.maxIds ∧ id = s.mem.segs.length ∧
        m = { s.mem with segs := s.mem.segs ++ [.seg (Segment.zeros n)] })) := by
  unfold State.segMap at h
  split at h
  · rename_i ha
    refine ⟨ha, ?_⟩
    split at h
    · rename_i j rest hf
      cases h
      exact .inl ⟨rest, hf, rfl⟩
    · rename_i hf
      split at h
      · rename_i hl
        cases h
        exact .inr ⟨hf, hl, rfl, rfl⟩
      · cases h
  · cases h

theorem segMap_error (h : s.segMap n = .error c) :
    c = .resourceFault ∧
      (s.allocOK n = false ∨ (s.mem.free = [] ∧ s.cfg.maxIds ≤ s.mem.segs.length)) := by
  unfold State.segMap at h
  split at h
  · split at h
    · cases h
    · rename_i hf
      split at h
      · cases h
      · rename_i hl
        cases h
        exact ⟨rfl, .inr ⟨hf, by omega⟩⟩
  · rename_i ha
    cases h
    exact ⟨rfl, .inl (by simpa using ha)⟩

theorem segMap_wf (hm : s.mem.wf = true) (h : s.segMap n = .ok (id, m)) : m.wf = true := by
  obtain ⟨-, ⟨rest, -, rfl⟩ | ⟨-, -, -, rfl⟩⟩ := segMap_ok h
  · exact setSlot_wf hm id (e := .seg (Segment.zeros n)) (zeros_wf n)
  · simpa [Memory.wf, Slot.wf] using hm

/-! ## SegUnmap (20_memory.md R58) -/

theorem memory_unmap_ok (h : m.unmap id = .ok m') :
    id ≠ 0 ∧ m.live id = true ∧ m' = { m.setSlot id .tomb with free := id :: m.free } := by
  unfold Memory.unmap at h
  split at h
  · rename_i hi
    cases h
    exact ⟨hi.1, hi.2, rfl⟩
  · cases h

theorem memory_unmap_error (h : m.unmap id = .error c) : c = .unmapFault ∧ (id = 0 ∨ m.live id = false) := by
  unfold Memory.unmap at h
  split at h
  · cases h
  · rename_i hi
    cases h
    refine ⟨rfl, ?_⟩
    by_cases h0 : id = 0
    · exact .inl h0
    · exact .inr (by simpa [h0] using hi)

theorem memory_unmap_wf (hm : m.wf = true) (h : m.unmap id = .ok m') : m'.wf = true := by
  obtain ⟨-, -, rfl⟩ := memory_unmap_ok h
  exact setSlot_wf hm id (e := .tomb) rfl

/-! ## SegReplaceZero (20_memory.md R59) -/

theorem segReplaceZero_ok (h : s.segReplaceZero id = .ok m) :
    (id = 0 ∧ m = s.mem) ∨
    (id ≠ 0 ∧ ∃ g, s.mem.segment id = some g ∧ s.allocOK g.length = true ∧ m = s.mem.setSlot 0 (.seg g)) := by
  unfold State.segReplaceZero at h
  split at h
  · rename_i h0
    cases h
    exact .inl ⟨h0, rfl⟩
  · rename_i h0
    cases hg : s.mem.segment id with
    | none => simp [hg] at h
    | some g =>
      simp only [hg] at h
      split at h
      · rename_i ha
        cases h
        exact .inr ⟨h0, g, rfl, ha, rfl⟩
      · cases h

theorem segReplaceZero_error (h : s.segReplaceZero id = .error c) :
    id ≠ 0 ∧
    ((c = .segmentIdFault ∧ s.mem.segment id = none) ∨
     (c = .resourceFault ∧ ∃ g, s.mem.segment id = some g ∧ s.allocOK g.length = false)) := by
  unfold State.segReplaceZero at h
  split at h
  · cases h
  · rename_i h0
    refine ⟨h0, ?_⟩
    cases hg : s.mem.segment id with
    | none => simp only [hg] at h; cases h; exact .inl ⟨rfl, rfl⟩
    | some g =>
      simp only [hg] at h
      split at h
      · cases h
      · rename_i ha
        cases h
        exact .inr ⟨rfl, g, rfl, by simpa using ha⟩

theorem segReplaceZero_wf (hm : s.mem.wf = true) (h : s.segReplaceZero id = .ok m) : m.wf = true := by
  obtain ⟨-, rfl⟩ | ⟨-, g, hg, -, rfl⟩ := segReplaceZero_ok h
  · exact hm
  · exact setSlot_wf hm 0 (e := .seg g) (segment_wf_of_memory hm hg)

/-! ## The input channel (45_io.md R204) -/

theorem input_next_some {e e' : InputEnv} {a : Answer} (h : e.next = some (a, e')) :
    (∃ rest, e.answers = a :: rest ∧ e' = { e with answers := rest }) ∨
    (e.answers = [] ∧ e.thereafter = some a ∧ e' = e) := by
  unfold InputEnv.next at h
  split at h
  · rename_i b rest hb
    cases h
    exact .inl ⟨rest, hb, rfl⟩
  · rename_i hb
    obtain ⟨b, hb', h⟩ := Option.map_eq_some_iff.1 h
    cases h
    exact .inr ⟨hb, hb', rfl⟩

theorem input_next_none {e : InputEnv} : e.next = none ↔ e.answers = [] ∧ e.thereafter = none := by
  unfold InputEnv.next
  split
  · rename_i h; simp [h]
  · rename_i h; simp [h]

/-- A sparse segment is its words: two canonical segments of one length that read alike are equal. -/
theorem readCells_ext {k : Nat} {t u : List (Nat × Word)} (ht : cellsWf k t = true) (hu : cellsWf k u = true)
    (h : ∀ a, readCells t a = readCells u a) : t = u := by
  induction t generalizing u with
  | nil =>
    cases u with
    | nil => rfl
    | cons e u =>
      obtain ⟨-, hv, -, -⟩ := cellsWf_cons.1 hu
      have := h e.1
      simp [readCells] at this
      exact absurd this.symm hv
  | cons e t ih =>
    obtain ⟨a, v⟩ := e
    obtain ⟨-, hv, hlt, htt⟩ := cellsWf_cons.1 ht
    cases u with
    | nil =>
      have := h a
      simp [readCells] at this
      exact absurd this hv
    | cons f u =>
      obtain ⟨b, w⟩ := f
      obtain ⟨-, hw, hlu, huu⟩ := cellsWf_cons.1 hu
      have hab : a = b := by
        rcases Nat.lt_trichotomy a b with hab | hab | hab
        · have h1 := h a
          have hz : readCells u a = 0#32 := readCells_eq_zero fun e he => by have := hlu e he; omega
          simp [readCells, hz, Nat.ne_of_gt hab] at h1
          exact absurd h1 hv
        · exact hab
        · have h1 := h b
          have hz : readCells t b = 0#32 := readCells_eq_zero fun e he => by have := hlt e he; omega
          simp [readCells, hz, Nat.ne_of_gt hab] at h1
          exact absurd h1.symm hw
      subst hab
      have hvw : v = w := by simpa [readCells] using h a
      subst hvw
      have htail : t = u := ih htt huu fun c => by
        by_cases hc : a = c
        · subst hc
          rw [readCells_eq_zero fun e he => by have := hlt e he; omega,
            readCells_eq_zero fun e he => by have := hlu e he; omega]
        · simpa [readCells, hc] using h c
      rw [htail]

end Sys2Proof.Machine
end

