-- ==== Sys2Proof/Laws/PerInstr.lean ====
section
/-! SUPPORT. Statements about instructions as syntax, one lemma per constructor. -/

namespace Sys2Proof.Laws.Canonical

open Sys2Proof Sys2Proof.Machine

/-- The canonical encoding carries the opcode of 30_encoding.md R96, and every bit the instruction ignores is zero
(R99). -/
def Statement (i : Instr) : Prop :=
  Sys2Proof.opcode (encode i) = i.opcode ∧ encode i &&& ~~~usedBits i = 0#32

/-- A standard word has no bit outside the opcode and the operand fields (R91). -/
theorem standardWord_and_not (op : BitVec 4) (a b c : Reg) : standardWord op a b c &&& ~~~0xF00001FF#32 = 0#32 := by
  apply BitVec.eq_of_getLsbD_eq
  intro i hi
  simp only [standardWord, BitVec.getLsbD_and, BitVec.getLsbD_append]
  interval_cases i <;> simp

theorem regBits_zero : regBits 0 = 0#3 := rfl

/-- With field A zero, the word has no bit outside the opcode and fields B and C. -/
theorem standardWord_bc_and_not (op : BitVec 4) (b c : Reg) : standardWord op 0 b c &&& ~~~0xF000003F#32 = 0#32 := by
  apply BitVec.eq_of_getLsbD_eq
  intro i hi
  simp only [standardWord, regBits_zero, BitVec.getLsbD_and, BitVec.getLsbD_append]
  interval_cases i <;> simp

/-- With fields A and B zero, the word has no bit outside the opcode and field C. -/
theorem standardWord_c_and_not (op : BitVec 4) (c : Reg) : standardWord op 0 0 c &&& ~~~0xF0000007#32 = 0#32 := by
  apply BitVec.eq_of_getLsbD_eq
  intro i hi
  simp only [standardWord, regBits_zero, BitVec.getLsbD_and, BitVec.getLsbD_append]
  interval_cases i <;> simp

/-- With every field zero, the word has no bit outside the opcode. -/
theorem standardWord_none_and_not (op : BitVec 4) : standardWord op 0 0 0 &&& ~~~0xF0000000#32 = 0#32 := by
  apply BitVec.eq_of_getLsbD_eq
  intro i hi
  simp only [standardWord, regBits_zero, BitVec.getLsbD_and, BitVec.getLsbD_append]
  interval_cases i <;> simp

theorem cmov (a b c : Reg) : Statement (.cmov a b c) :=
  ⟨opcode_standardWord .., standardWord_and_not ..⟩

theorem sload (a b c : Reg) : Statement (.sload a b c) :=
  ⟨opcode_standardWord .., standardWord_and_not ..⟩

theorem sstore (a b c : Reg) : Statement (.sstore a b c) :=
  ⟨opcode_standardWord .., standardWord_and_not ..⟩

theorem add (a b c : Reg) : Statement (.add a b c) :=
  ⟨opcode_standardWord .., standardWord_and_not ..⟩

theorem mul (a b c : Reg) : Statement (.mul a b c) :=
  ⟨opcode_standardWord .., standardWord_and_not ..⟩

theorem div (a b c : Reg) : Statement (.div a b c) :=
  ⟨opcode_standardWord .., standardWord_and_not ..⟩

theorem nand (a b c : Reg) : Statement (.nand a b c) :=
  ⟨opcode_standardWord .., standardWord_and_not ..⟩

theorem halt : Statement .halt :=
  ⟨opcode_standardWord .., standardWord_none_and_not ..⟩

theorem map (b c : Reg) : Statement (.map b c) :=
  ⟨opcode_standardWord .., standardWord_bc_and_not ..⟩

theorem unmap (c : Reg) : Statement (.unmap c) :=
  ⟨opcode_standardWord .., standardWord_c_and_not ..⟩

theorem out (c : Reg) : Statement (.out c) :=
  ⟨opcode_standardWord .., standardWord_c_and_not ..⟩

theorem inp (c : Reg) : Statement (.inp c) :=
  ⟨opcode_standardWord .., standardWord_c_and_not ..⟩

theorem loadprog (b c : Reg) : Statement (.loadprog b c) :=
  ⟨opcode_standardWord .., standardWord_bc_and_not ..⟩

theorem loadi (a : Reg) (imm : BitVec 25) : Statement (.loadi a imm) :=
  ⟨opcode_immediateWord .., by simp [usedBits]⟩

end Sys2Proof.Laws.Canonical
end

