-- ==== Sys2Proof/Laws/Step.lean ====
section
/-! SUPPORT. What a fetch, a step and a meaning can do. -/

namespace Sys2Proof.Machine

/-! ## What a meaning can do -/

/-- The effect of an instruction that completes, as one equation per instruction; `exec_next` says that an instruction
either has this effect or takes a fault. -/
inductive Completes : Instr → State → State → Prop where
  | cmovTrue {a b c s} : s.reg c ≠ 0#32 → Completes (.cmov a b c) s (s.setReg a (s.reg b)).advance
  | cmovFalse {a b c s} : s.reg c = 0#32 → Completes (.cmov a b c) s s.advance
  | sload {a b c s v} : s.mem.read (s.regNat b) (s.regNat c) = .ok v →
      Completes (.sload a b c) s (s.setReg a v).advance
  | sstore {a b c s m} : s.mem.write (s.regNat a) (s.regNat b) (s.reg c) = .ok m →
      Completes (.sstore a b c) s (s.setMem m).advance
  | add {a b c s} : Completes (.add a b c) s (s.setReg a (addWord (s.reg b) (s.reg c))).advance
  | mul {a b c s} : Completes (.mul a b c) s (s.setReg a (mulWord (s.reg b) (s.reg c))).advance
  | div {a b c s} : s.reg c ≠ 0#32 → Completes (.div a b c) s (s.setReg a (divWord (s.reg b) (s.reg c))).advance
  | nand {a b c s} : Completes (.nand a b c) s (s.setReg a (nandWord (s.reg b) (s.reg c))).advance
  | halt {s} : Completes .halt s s.halt
  | map {b c s id m} : s.segMap (s.regNat c) = .ok (id, m) →
      Completes (.map b c) s ((s.setMem m).setReg b (BitVec.ofNat 32 id)).advance
  | unmap {c s m} : s.mem.unmap (s.regNat c) = .ok m → Completes (.unmap c) s (s.setMem m).advance
  | outEmit {c s} : s.reg c ≤ outMax → Completes (.out c) s (s.emit ((s.reg c).setWidth 8)).advance
  | outSkip {c s} : ¬ s.reg c ≤ outMax → Completes (.out c) s s.advance
  | inpAnswer {c s a e} : s.input.next = some (a, e) →
      Completes (.inp c) s ((s.take a e).setReg c (answerWord a)).advance
  | inpWait {c s} : s.input.next = none → Completes (.inp c) s s.ask
  | jump {b c s} : s.reg b = 0#32 → Completes (.loadprog b c) s (s.setPc (s.reg c))
  | load {b c s m} : s.reg b ≠ 0#32 → s.segReplaceZero (s.regNat b) = .ok m →
      Completes (.loadprog b c) s (((s.setMem m).setReg b 0#32).setPc (s.reg c))
  | loadi {a imm s} : Completes (.loadi a imm) s (s.setReg a (zextImm imm)).advance

/-- When an instruction takes a fault (60_exceptions.md R211). -/
inductive Faults : Instr → State → Cause → Prop where
  | sload {a b c s k} : s.mem.read (s.regNat b) (s.regNat c) = .error k → Faults (.sload a b c) s k
  | sstore {a b c s k} : s.mem.write (s.regNat a) (s.regNat b) (s.reg c) = .error k → Faults (.sstore a b c) s k
  | div {a b c s} : s.reg c = 0#32 → Faults (.div a b c) s .divideByZero
  | map {b c s k} : s.segMap (s.regNat c) = .error k → Faults (.map b c) s k
  | unmap {c s k} : s.mem.unmap (s.regNat c) = .error k → Faults (.unmap c) s k
  | load {b c s k} : s.reg b ≠ 0#32 → s.segReplaceZero (s.regNat b) = .error k → Faults (.loadprog b c) s k

variable {s t : State} {w : Word} {i : Instr}

/-! ## Fetch -/

theorem fetch_word : s.fetch = .word w ↔ s.mem.read 0 s.pc.toNat = .ok w := by
  rw [memory_read_eq_ok]
  unfold State.fetch
  cases hg : s.mem.segment 0 with
  | none => simp
  | some g => cases hr : g.read s.pc.toNat <;> simp [hr]

theorem fetch_outside : s.fetch = .outside ↔ ∃ g, s.mem.segment 0 = some g ∧ g.length ≤ s.pc.toNat := by
  unfold State.fetch
  cases hg : s.mem.segment 0 with
  | none => simp
  | some g =>
    cases hr : g.read s.pc.toNat with
    | none => simpa [hr] using segment_read_eq_none.1 hr
    | some v => simpa [hr] using (segment_read_eq_some.1 hr).1

theorem fetch_noProgram : s.fetch = .noProgram ↔ s.mem.segment 0 = none := by
  unfold State.fetch
  cases hg : s.mem.segment 0 with
  | none => simp
  | some g => cases hr : g.read s.pc.toNat <;> simp [hr]

/-! ## The step -/

theorem step_of_not_running (h : s.run ≠ .running) : step s = .next s := by
  unfold step cycle
  cases hr : s.run <;> simp_all

theorem step_of_running (h : s.run = .running) : step s = runFetched s.fetch s := by
  simp [step, cycle, h]

theorem step_of_fetch_outside (h : s.run = .running) (hf : s.fetch = .outside) :
    step s = .next (s.raise .fetchFault) := by
  rw [step_of_running h, hf]; rfl

theorem step_of_undefined (h : s.run = .running) (hf : s.fetch = .word w) {e : DecodeError}
    (hd : decode w = .error e) : step s = .next (s.raise .illegalOpcode) := by
  rw [step_of_running h, hf]; simp [runFetched, hd, trap]

theorem step_of_decoded (h : s.run = .running) (hf : s.fetch = .word w) (hd : decode w = .ok i) :
    step s = exec i s := by
  rw [step_of_running h, hf]; simp [runFetched, hd]

/-- Everything a step that answers a next state can be. -/
theorem step_cases (h : step s = .next t) :
    (s.run ≠ .running ∧ t = s) ∨
    (s.run = .running ∧ s.fetch = .outside ∧ t = s.raise .fetchFault) ∨
    (s.run = .running ∧ ∃ w e, s.fetch = .word w ∧ decode w = .error e ∧ t = s.raise .illegalOpcode) ∨
    (s.run = .running ∧ ∃ w i, s.fetch = .word w ∧ decode w = .ok i ∧ exec i s = .next t) := by
  by_cases hr : s.run = .running
  · cases hf : s.fetch with
    | noProgram => rw [step_of_running hr, hf] at h; cases h
    | outside => rw [step_of_fetch_outside hr hf] at h; cases h; exact .inr (.inl ⟨hr, rfl, rfl⟩)
    | word w =>
      cases hd : decode w with
      | error e =>
        rw [step_of_undefined hr hf hd] at h; cases h
        exact .inr (.inr (.inl ⟨hr, w, e, rfl, hd, rfl⟩))
      | ok i =>
        rw [step_of_decoded hr hf hd] at h
        exact .inr (.inr (.inr ⟨hr, w, i, rfl, hd, h⟩))
  · rw [step_of_not_running hr] at h; cases h; exact .inl ⟨hr, rfl⟩

/-! ## Runs -/

theorem core_run_next {M : Host.Core} {k : Nat} {u v : M.State} (h : M.step u = .next v) :
    M.run (k + 1) u = M.run k v := by
  simp only [Host.Core.run, h]

/-- A run of `k + 1` steps is one step and then a run of `k`. -/
theorem run_of_step {k : Nat} (h : step s = .next t) :
    Host.Core.run Sys2Proof.core (k + 1) s = Host.Core.run Sys2Proof.core k t :=
  core_run_next (M := Sys2Proof.core) h

/-! ## The meanings -/

theorem exec_of_completes (h : Completes i s t) : exec i s = .next t := by
  cases h <;> simp_all [exec, execCmov, execSload, execSstore, execAdd, execMul, execDiv, execNand, execHalt, execMap,
    execUnmap, execOut, execInp, execLoadprog, execLoadi, nonZero, emittable, loadAddress, storeAddress]

theorem exec_of_faults {k : Cause} (h : Faults i s k) : exec i s = .next (s.raise k) := by
  cases h <;> simp_all [exec, execSload, execSstore, execDiv, execMap, execUnmap, execLoadprog, nonZero, loadAddress,
    storeAddress, trap]

/-- No instruction stops the model: it completes or it takes a fault of the spec. -/
theorem completes_or_faults (i : Instr) (s : State) : (∃ t, Completes i s t) ∨ (∃ k, Faults i s k) := by
  cases i with
  | cmov a b c =>
    by_cases h : s.reg c = 0#32
    · exact .inl ⟨_, .cmovFalse h⟩
    · exact .inl ⟨_, .cmovTrue h⟩
  | sload a b c =>
    cases h : s.mem.read (s.regNat b) (s.regNat c) with
    | ok v => exact .inl ⟨_, .sload h⟩
    | error k => exact .inr ⟨_, .sload h⟩
  | sstore a b c =>
    cases h : s.mem.write (s.regNat a) (s.regNat b) (s.reg c) with
    | ok m => exact .inl ⟨_, .sstore h⟩
    | error k => exact .inr ⟨_, .sstore h⟩
  | add a b c => exact .inl ⟨_, .add⟩
  | mul a b c => exact .inl ⟨_, .mul⟩
  | div a b c =>
    by_cases h : s.reg c = 0#32
    · exact .inr ⟨_, .div h⟩
    · exact .inl ⟨_, .div h⟩
  | nand a b c => exact .inl ⟨_, .nand⟩
  | halt => exact .inl ⟨_, .halt⟩
  | map b c =>
    cases h : s.segMap (s.regNat c) with
    | ok p => obtain ⟨id, m⟩ := p; exact .inl ⟨_, .map h⟩
    | error k => exact .inr ⟨_, .map h⟩
  | unmap c =>
    cases h : s.mem.unmap (s.regNat c) with
    | ok m => exact .inl ⟨_, .unmap h⟩
    | error k => exact .inr ⟨_, .unmap h⟩
  | out c =>
    by_cases h : s.reg c ≤ outMax
    · exact .inl ⟨_, .outEmit h⟩
    · exact .inl ⟨_, .outSkip h⟩
  | inp c =>
    cases h : s.input.next with
    | none => exact .inl ⟨_, .inpWait h⟩
    | some p => obtain ⟨a, e⟩ := p; exact .inl ⟨_, .inpAnswer h⟩
  | loadprog b c =>
    by_cases h0 : s.reg b = 0#32
    · exact .inl ⟨_, .jump h0⟩
    · cases h : s.segReplaceZero (s.regNat b) with
      | ok m => exact .inl ⟨_, .load h0 h⟩
      | error k => exact .inr ⟨_, .load h0 h⟩
  | loadi a imm => exact .inl ⟨_, .loadi⟩

/-- No instruction but IN makes an Input request. -/
theorem completes_asking (h : Completes i s t) (hi : ∀ c, i ≠ .inp c) : t.asking = s.asking := by
  cases h
  case inpAnswer c _ _ _ => exact absurd rfl (hi c)
  case inpWait c _ => exact absurd rfl (hi c)
  all_goals rfl

/-- Everything an instruction can do. -/
theorem exec_next : exec i s = .next t ↔ Completes i s t ∨ ∃ k, Faults i s k ∧ t = s.raise k := by
  constructor
  · intro h
    rcases completes_or_faults i s with ⟨u, hu⟩ | ⟨k, hk⟩
    · rw [exec_of_completes hu] at h; cases h; exact .inl hu
    · rw [exec_of_faults hk] at h; cases h; exact .inr ⟨k, hk, rfl⟩
  · rintro (h | ⟨k, hk, rfl⟩)
    · exact exec_of_completes h
    · exact exec_of_faults hk

end Sys2Proof.Machine
end

