-- ==== Sys2Proof/Tests/Slice0.lean ====
section
/-! SUPPORT. Tests: expected values are those of spec/95_test_vectors.md and of the examples in spec/; and one witness
for the hypotheses of each statement that has some. -/

namespace Sys2Proof.Tests

open Sys2Proof Sys2Proof.Machine

/-! ## Helpers -/

/-- The register file that is 0 but for the listed registers. -/
def regs (l : List (Reg × Word)) : RegFile := l.foldl (fun v p => v.set p.1 p.2) (Vector.replicate 8 0#32)

/-- The memory of the common start state `M` of 95_test_vectors.md 2.3, its program having the word `w` at index 4. -/
def memM (w : Word) : Memory :=
  { segs := [.seg (Segment.ofWords [0xD0000048#32, 0#32, 0#32, 0#32, w, 0#32, 0#32, 0#32]),
      .seg (Segment.ofWords [0xA#32, 0x14#32, 0x1E#32]), .tomb, .seg (Segment.ofWords [])]
    free := [2] }

/-- The state `M` with the given registers, `pc = 4`. -/
def stateM (w : Word) (l : List (Reg × Word)) : State :=
  { State.reset with x := regs l, pc := 4#32, mem := memM w }

/-- A part of the next state, where there is one. -/
def after {α : Type} (o : Host.Outcome State Fault Refusal) (f : State → α) : Option α :=
  match o with
  | .next t => some (f t)
  | .fault _ => none
  | .refused _ => none

/-- A part of the state after one step of `M`. -/
def stepM {α : Type} (w : Word) (l : List (Reg × Word)) (f : State → α) : Option α := after (step (stateM w l)) f

theorem stateM_inv (w : Word) (l : List (Reg × Word)) : StateInv (stateM w l) := by
  refine ⟨?_, rfl, List.nodup_singleton 2, ?_, by simp [stateM, memM, State.reset, Config.default], rfl, ?_,
    by simp [stateM, State.reset], by simp [stateM, State.reset]⟩
  · simp [stateM, memM, Memory.wf, Slot.wf, ofWords_wf]
  · intro id
    rcases id with _ | _ | _ | _ | n <;> simp [stateM, memM]
  · intro id g hg
    rw [memory_segment_eq_some] at hg
    rcases id with _ | _ | _ | _ | n <;> simp [stateM, memM] at hg <;> subst hg <;> simp [maxImageWords]

/-! ## Well-formedness refuses ill-formed terms -/

theorem test_wf_register : regInRange 7 = true ∧ regInRange 8 = false ∧ reg? 8 = none := by decide
theorem test_wf_immediate : immInRange 0x1FFFFFF = true ∧ immInRange 0x2000000 = false ∧ imm? 0x2000000 = none := by
  decide
/-- 95_test_vectors.md S9, RS5, RS6. -/
theorem test_wf_image : imageWellFormed [] = true ∧ imageWellFormed [0xD0#8, 0#8, 0#8, 0x48#8, 0xA0#8] = false := by
  decide
theorem test_wf_config : Config.default.wf = true ∧ Config.wf { maxIds := 0, alloc := .unbounded } = false ∧
    Config.wf { maxIds := 2 ^ 32 + 1, alloc := .unbounded } = false := by decide

/-! ## Decoding and encoding: words of 30_encoding.md R103 and 95_test_vectors.md 2.1, bit by bit -/

theorem test_decode_move : decode 0b00000000000000000000000001010011#32 = .ok (.cmov 1 2 3) ∧
    decode 0b11010111001000110100010101100111#32 = .ok (.loadi 3 0x1234567#25) := by decide
theorem test_decode_segment : decode 0b00010000000000000000000101010011#32 = .ok (.sload 5 2 3) ∧
    decode 0b00100000000000000000000010011100#32 = .ok (.sstore 2 3 4) ∧
    decode 0b10000000000000000000000000010001#32 = .ok (.map 2 1) ∧
    decode 0b10010000000000000000000000000010#32 = .ok (.unmap 2) := by decide
theorem test_decode_arith : decode 0b00110000000000000000000100001010#32 = .ok (.add 4 1 2) ∧
    decode 0b01000000000000000000000111111110#32 = .ok (.mul 7 7 6) ∧
    decode 0b01010000000000000000000010001010#32 = .ok (.div 2 1 2) ∧
    decode 0b01100000000000000000000011000000#32 = .ok (.nand 3 0 0) := by decide
theorem test_decode_control : decode 0b01111111111111111111111111111111#32 = .ok .halt ∧
    decode 0b11000000000000000000000000010101#32 = .ok (.loadprog 2 5) := by decide
theorem test_decode_console : decode 0b10100000000000000000000000000100#32 = .ok (.out 4) ∧
    decode 0b10110000000000000000000000000111#32 = .ok (.inp 7) := by decide
theorem test_decode_undefined : decode 0xE0000000#32 = .error (.illegalOpcode 14#4) ∧
    decode 0xF1234567#32 = .error (.illegalOpcode 15#4) := by decide
theorem test_encode : encode (.sstore 2 3 4) = 0x2000009C#32 ∧ encode (.loadi 7 0x1FFFFFF#25) = 0xDFFFFFFF#32 ∧
    encode (.unmap 2) = 0x90000002#32 ∧ encode (.cmov 5 6 1) = 0x00000171#32 ∧ encode .halt = 0x70000000#32 := by decide
/-- 95_test_vectors.md RS3, RS4. -/
theorem test_image_words : imageWords [0xD0#8, 0#8, 0#8, 0x48#8, 0xA0#8, 0#8, 0#8, 0#8] =
    some [0xD0000048#32, 0xA0000000#32] ∧ imageWords [0x48#8, 0#8, 0#8, 0xD0#8] = some [0x480000D0#32] := by decide
theorem test_decode_bytes : decodeBytes [0x70#8, 0#8, 0#8] = .error .truncated ∧
    decodeBytes [0x70#8, 0#8, 0#8, 0#8, 1#8] = .ok (.halt, [1#8]) := by decide

/-! ## The opcode table's words run first after reset -/

theorem test_table_words : decodeTableWord 32 0xB0000001 = some (.inp 1) ∧ decodeTableWord 32 0xE0000000 = none := by
  decide
/-- S8: an IN as the first instruction with the input stream empty. -/
theorem test_first_instruction_in :
    after (step (State.reset.withFetchWord 32 0xB0000001)) (fun t => (t.reg 1, t.pc, t.run)) =
      some (0xFFFFFFFF#32, 1#32, .running) := by decide
/-- S10: the first MAP of a run returns 1. -/
theorem test_first_instruction_map :
    after (step (State.reset.withFetchWord 32 0x80000008)) (fun t => (t.reg 1, t.pc, t.mem.live 1, t.mem.segs.length)) =
      some (1#32, 1#32, true, 2) := by decide
/-- RS2, F3: the first step of an empty image. -/
theorem test_empty_image : after (step State.reset) (fun t => (t.run, t.cause, t.pc)) =
    some (.aborted, some .fetchFault, 0#32) := by decide

/-- The codes of 60_exceptions.md R211. -/
theorem test_cause_codes : [Cause.illegalOpcode, .divideByZero, .fetchFault, .segmentIdFault, .offsetFault, .unmapFault,
    .resourceFault].map Cause.code = [1, 2, 3, 4, 5, 6, 7] := by decide

/-! ## Register moves (MV1, MV3, MV6, LI2, LI4) -/

theorem test_cmov_true : stepM 0x00000053#32 [(1, 0x11111111#32), (2, 0x22222222#32), (3, 0x80000000#32)]
    (fun t => (t.reg 1, t.pc)) = some (0x22222222#32, 5#32) := by decide
theorem test_cmov_false : stepM 0x00000051#32 [(1, 0#32), (2, 9#32)] (fun t => (t.reg 1, t.pc)) =
    some (0#32, 5#32) := by decide
theorem test_loadi_zero_extends : stepM 0xDFFFFFFF#32 [] (fun t => (t.reg 7, t.pc)) =
    some (0x01FFFFFF#32, 5#32) := by decide
theorem test_loadi_register_field : stepM 0xD7234567#32 [(5, 0x55#32)] (fun t => (t.reg 3, t.reg 5)) =
    some (0x01234567#32, 0x55#32) := by decide

/-! ## Arithmetic and logic (A1, A6, M4, M5, D1, D10, N1, and the same-register cases) -/

theorem test_add_wraps : stepM 0x300000CA#32 [(1, 0xFFFFFFFF#32), (2, 1#32), (3, 0x12345678#32)]
    (fun t => (t.reg 3, t.pc)) = some (0#32, 5#32) := by decide
theorem test_add_self : stepM 0x30000049#32 [(1, 0xC0000001#32)] (fun t => t.reg 1) = some 0x80000002#32 := by decide
theorem test_mul_low_half : stepM 0x400000CA#32 [(1, 0x12345678#32), (2, 0x9ABCDEF0#32)] (fun t => t.reg 3) =
    some 0x242D2080#32 := by decide
theorem test_mul_square : stepM 0x400000CA#32 [(1, 0xFFFFFFFF#32), (2, 0xFFFFFFFF#32)] (fun t => t.reg 3) =
    some 1#32 := by decide
theorem test_div_unsigned : stepM 0x500000CA#32 [(1, 0x80000000#32), (2, 3#32)] (fun t => (t.reg 3, t.pc)) =
    some (0x2AAAAAAA#32, 5#32) := by decide
theorem test_div_zero : stepM 0x500000CA#32 [(1, 0xA#32), (3, 0x4D#32)] (fun t => (t.run, t.cause, t.reg 3, t.pc)) =
    some (.aborted, some .divideByZero, 0x4D#32, 4#32) := by decide
theorem test_nand : stepM 0x600000CA#32 [(1, 0x0F0F0F0F#32), (2, 0x00FF00FF#32)] (fun t => t.reg 3) =
    some 0xFFF0FFF0#32 := by decide
theorem test_nand_self : stepM 0x60000089#32 [(1, 0x48#32)] (fun t => t.reg 2) = some 0xFFFFFFB7#32 := by decide

/-! ## Segment memory (SM5, SM11, SM13, SM17, SM22, SM25, SM26, SM30) -/

theorem test_sload : stepM 0x10000093#32 [(2, 1#32), (3, 1#32)] (fun t => (t.reg 2, t.pc)) =
    some (0x14#32, 5#32) := by decide
theorem test_sload_id_first : stepM 0x10000153#32 [(2, 2#32), (3, 0xFFFFFFFF#32)] (fun t => (t.cause, t.pc)) =
    some (some .segmentIdFault, 4#32) := by decide
theorem test_sstore : stepM 0x2000009C#32 [(2, 1#32), (3, 1#32), (4, 0xDEADBEEF#32)]
    (fun t => (t.mem.segment 1).map Segment.words) = some (some [0xA#32, 0xDEADBEEF#32, 0x1E#32]) := by decide
theorem test_sstore_offset : stepM 0x2000009C#32 [(2, 1#32), (3, 3#32), (4, 1#32)] (fun t => (t.cause, t.mem)) =
    some (some .offsetFault, memM 0x2000009C#32) := by decide
theorem test_map_reuses : stepM 0x80000009#32 [(1, 5#32)]
    (fun t => (t.reg 1, (t.mem.segment 2).map Segment.words, t.mem.free)) =
      some (2#32, some [0#32, 0#32, 0#32, 0#32, 0#32], []) := by decide
/-- F13: the table is full. -/
theorem test_map_table_full :
    after (exec (.map 3 1) { State.reset with x := regs [(1, 1#32)], cfg := { Config.default with maxIds := 1 } })
      (fun t => (t.cause, t.reg 3, t.mem.segs.length)) = some (some .resourceFault, 0#32, 1) := by decide
theorem test_unmap : stepM 0x90000002#32 [(2, 1#32)] (fun t => (t.mem.segs[1]?, t.mem.free, t.reg 2)) =
    some (some .tomb, [1, 2], 1#32) := by decide
theorem test_unmap_out_of_range : stepM 0x90000002#32 [(2, 4#32)] (fun t => (t.cause, t.mem.free)) =
    some (some .unmapFault, [2]) := by decide

/-! ## Control (CT1, CT7, CT8, CT10) -/

theorem test_halt : stepM 0x7ABCDEF0#32 [] (fun t => (t.run, t.cause, t.pc)) = some (.halted, none, 4#32) := by decide
theorem test_loadprog_same_register : stepM 0xC000001B#32 [(3, 1#32)]
    (fun t => (t.reg 3, t.pc, (t.mem.segment 0).map Segment.words)) =
      some (0#32, 1#32, some [0xA#32, 0x14#32, 0x1E#32]) := by decide
theorem test_loadprog_dead_source : stepM 0xC0000015#32 [(2, 2#32), (5, 7#32)] (fun t => (t.cause, t.pc, t.reg 2)) =
    some (some .segmentIdFault, 4#32, 2#32) := by decide
theorem test_terminal_stays : after (step { State.reset with run := .halted }) (fun t => (t.run, t.pc)) =
    some (.halted, 0#32) := by decide

/-! ## Console (IO3, IO4, IO8, IO10) -/

theorem test_out : stepM 0xA0000000#32 [(0, 0xFF#32)] (fun t => (t.output, t.pc)) = some ([0xFF#8], 5#32) := by decide
theorem test_out_skips : stepM 0xA0000000#32 [(0, 0x100#32)] (fun t => (t.output, t.run, t.pc)) =
    some ([], .running, 5#32) := by decide
theorem test_in_byte :
    after (step { stateM 0xB0000001#32 [] with input := InputEnv.standard [0xFF#8] }) (fun t => (t.reg 1, t.input)) =
      some (0xFF#32, InputEnv.standard []) := by decide
theorem test_in_waits :
    after (step { stateM 0xB0000001#32 [] with input := { answers := [], thereafter := none } })
      (fun t => (t.reg 1, t.pc, t.observe)) =
      some (0#32, 4#32, { output := [], requests := [none], run := .running, cause := none }) := by decide

/-! ## Witnesses: states and operands that meet each statement's hypotheses -/

/-- M with a word that runs `ADD r0, r1, r2`. -/
def sAdd : State := stateM 0x3FFFFE0A#32 [(1, 5#32), (2, 7#32)]

theorem witness_EncodeOfDecode : decode 0x3FFFFE0A#32 = .ok (.add 0 1 2) := by decide
theorem witness_IgnoredBitsChangeNothing : decode 0x3FFFFE0A#32 = .ok (.add 0 1 2) ∧
    0x3000000A#32 &&& usedBits (.add 0 1 2) = 0x3FFFFE0A#32 &&& usedBits (.add 0 1 2) := by decide
theorem witness_ImageBytesAreBigEndianWords :
    ([0x48#8, 0#8, 0#8, 0xD0#8].length % 4 = 0 ∧ [0x48#8, 0#8, 0#8, 0xD0#8].length / 4 ≤ maxImageWords) ∧
    [0x48#8, 0#8, 0#8].length % 4 ≠ 0 := by decide
theorem witness_FirstInstructionIsTheFirstWord : [0x70000000#32].length ≤ maxImageWords ∧
    decode 0x70000000#32 = .ok .halt := by decide
theorem witness_ResetClearsTheRest : sAdd.cfg = State.reset.cfg := by decide
theorem witness_BootMeetsTheInvariant : Config.default.wf = true ∧ [0x70000000#32].length ≤ maxImageWords := by decide
theorem witness_EveryRunKeepsTheInvariant :
    Config.wf { maxIds := 1, alloc := .oracle } = true ∧ [0x70000000#32].length ≤ maxImageWords := by decide
theorem witness_StepKeepsTheInvariant : ∃ t, StateInv sAdd ∧ step sAdd = .next t := ⟨_, stateM_inv _ _, rfl⟩
theorem witness_StepAlwaysAnswersNext : StateInv sAdd := stateM_inv _ _
theorem witness_StepRunsTheDecodedInstruction : sAdd.run = .running ∧
    sAdd.mem.read 0 sAdd.pc.toNat = .ok 0x3FFFFE0A#32 ∧ decode 0x3FFFFE0A#32 = .ok (.add 0 1 2) := by decide
theorem witness_FetchPastTheEndAborts : State.reset.run = .running ∧ State.reset.mem.live 0 = true ∧
    State.reset.mem.len 0 ≤ State.reset.pc.toNat := by decide
theorem witness_UndefinedOpcodeAborts : (stateM 0xE0000000#32 []).run = .running ∧
    (stateM 0xE0000000#32 []).cause = none ∧ (stateM 0xE0000000#32 []).mem.read 0 4 = .ok 0xE0000000#32 ∧
    (0xE0000000#32).toNat / 2 ^ 28 = 14 ∧ (0xF0000000#32).toNat / 2 ^ 28 = 15 := by decide
theorem witness_TerminalStatesStay : (State.reset.raise .fetchFault).run ≠ .running ∧ State.reset.halt.run ≠ .running := by
  decide
theorem witness_FaultsArePrecise : ∃ t, State.reset.run = .running ∧ step State.reset = .next t ∧ t.run = .aborted :=
  ⟨_, rfl, rfl, rfl⟩
theorem witness_RunStateTransitions : ∃ t, sAdd.run = .running ∧ sAdd.cause = none ∧ step sAdd = .next t :=
  ⟨_, rfl, rfl, rfl⟩
theorem witness_ProgramCounterAfterEachInstruction : ∃ t, sAdd.run = .running ∧ exec (.add 0 1 2) sAdd = .next t ∧
    t.run ≠ .aborted := ⟨_, rfl, rfl, by decide⟩
theorem witness_ProgramCounterNeverWraps : StateInv sAdd ∧ sAdd.mem.read 0 sAdd.pc.toNat = .ok 0x3FFFFE0A#32 :=
  ⟨stateM_inv _ _, by decide⟩
theorem witness_OnlyTheDestinationRegisterChanges : ∃ t, exec (.add 0 1 2) sAdd = .next t ∧
    destination (.add 0 1 2) ≠ some 1 := ⟨_, rfl, by decide⟩
theorem witness_OnlySegmentInstructionsChangeMemory : ∃ t, exec (.add 0 1 2) sAdd = .next t ∧
    changesMemory (.add 0 1 2) = false := ⟨_, rfl, rfl⟩
theorem witness_OutputOnlyGrowsByOut : ∃ t, step (stateM 0xA0000000#32 []) = .next t := ⟨_, rfl⟩
theorem witness_AnswersAreTakenOnlyByIn : ∃ t, step (stateM 0xB0000001#32 []) = .next t := ⟨_, rfl⟩
/-- An answered IN, an IN that asks, and an IN that goes on waiting. -/
theorem witness_RequestsAreMadeOnlyByIn :
    (∃ t, step (stateM 0xB0000001#32 []) = .next t ∧ t.requests = [some .eos]) ∧
    ∃ t u, step { stateM 0xB0000001#32 [] with input := { answers := [], thereafter := none } } = .next t ∧
      t.requests = [none] ∧ step t = .next u ∧ u.requests = [none] := ⟨⟨_, rfl, rfl⟩, _, _, rfl, rfl, rfl, rfl⟩
theorem witness_OtherStepsDoNotReadTheInput : ∃ t,
    (∀ w c, sAdd.mem.read 0 sAdd.pc.toNat = .ok w → decode w ≠ .ok (.inp c)) ∧ step sAdd = .next t := by
  refine ⟨_, fun w c h => ?_, rfl⟩
  have : sAdd.mem.read 0 sAdd.pc.toNat = .ok 0x3FFFFE0A#32 := by decide
  rw [this] at h
  cases h
  revert c
  decide
theorem witness_TableGrowsAndLengthsStay : ∃ t, StateInv (stateM 0x80000009#32 []) ∧
    step (stateM 0x80000009#32 []) = .next t ∧ (1 : Nat) ≠ 0 ∧ (stateM 0x80000009#32 []).mem.live 1 = true ∧
    t.mem.live 1 = true := ⟨_, stateM_inv _ _, rfl, by decide, rfl, rfl⟩
theorem witness_FreeStackChangesOnlyByMapAndUnmap : ∃ t, StateInv (stateM 0#32 []) ∧
    exec (.map 1 1) (stateM 0#32 []) = .next t := ⟨_, stateM_inv _ _, rfl⟩

/-- M with a store of 11 words in all, which it fills. -/
def sFull : State := { stateM 0x80000009#32 [(1, 3#32)] with cfg := { maxIds := 4, alloc := .capacity 11 } }

theorem sFull_inv : StateInv sFull :=
  let h := stateM_inv 0x80000009#32 [(1, 3#32)]
  ⟨h.memWf, h.programLive, h.freeNodup, h.freeIffTomb, by decide, by decide, h.lengthBound, h.causeIff, h.askingAtIn⟩

theorem witness_CapacityIsNeverExceeded : ∃ t, StateInv sFull ∧ sFull.cfg.alloc = .capacity 11 ∧
    sFull.mem.liveWords ≤ 11 ∧ step sFull = .next t := ⟨_, sFull_inv, rfl, by decide, rfl⟩
theorem witness_CmovMovesWhenNonZero : ((stateM 0#32 [(3, 0x80000000#32)]).reg 3).toNat ≠ 0 ∧
    ((stateM 0#32 []).reg 3).toNat = 0 := by decide
theorem witness_DivIsUnsignedFloor : (sAdd.reg 2).toNat ≠ 0 := by decide
theorem witness_DivideByZeroAborts : sAdd.run = .running ∧ (sAdd.reg 3).toNat = 0 := by decide
theorem witness_SameRegisterIsReadBeforeWritten : (sAdd.reg 1).toNat ≠ 0 := by decide
theorem witness_SloadReadsTheAddressedWord :
    (stateM 0#32 [(2, 1#32), (3, 2#32)]).mem.segment ((stateM 0#32 [(2, 1#32), (3, 2#32)]).regNat 2) =
      some (Segment.ofWords [0xA#32, 0x14#32, 0x1E#32]) ∧
    (stateM 0#32 [(2, 1#32), (3, 2#32)]).regNat 3 < (Segment.ofWords [0xA#32, 0x14#32, 0x1E#32]).length := by decide
theorem witness_SstoreWritesTheAddressedWord : StateInv (stateM 0#32 [(2, 1#32), (3, 2#32)]) ∧
    (stateM 0#32 [(2, 1#32), (3, 2#32)]).mem.live 1 = true ∧
    (stateM 0#32 [(2, 1#32), (3, 2#32)]).regNat 3 < (stateM 0#32 [(2, 1#32), (3, 2#32)]).mem.len 1 :=
  ⟨stateM_inv _ _, by decide, by decide⟩
/-- Every clause, at the first value past the range: a tombstone, the table's length, the segment's length. -/
theorem witness_BadAddressAborts : (stateM 0#32 []).mem.live 2 = false ∧ (stateM 0#32 []).mem.live 4 = false ∧
    (stateM 0#32 []).mem.live 1 = true ∧ (stateM 0#32 []).mem.len 1 ≤ (stateM 0#32 [(3, 3#32)]).regNat 3 ∧
    (stateM 0#32 []).mem.live 3 = true ∧ (stateM 0#32 []).mem.len 3 ≤ (stateM 0#32 []).regNat 3 := by decide
theorem witness_MapMakesAZeroedSegment : StateInv (stateM 0#32 []) ∧ (stateM 0#32 []).allocOK 0 = true ∧
    (stateM 0#32 []).mem.free ≠ [] := ⟨stateM_inv _ _, by decide, by decide⟩
theorem witness_MapMakesAZeroedSegment_append : StateInv State.reset ∧ State.reset.allocOK 0 = true ∧
    State.reset.mem.segs.length < State.reset.cfg.maxIds := by
  refine ⟨⟨by decide, by decide, by decide, fun id => ?_, by decide, by decide, fun id g hg => ?_, by decide, by decide⟩,
    by decide, by decide⟩
  · rcases id with _ | n <;> simp [State.reset]
  · rw [memory_segment_eq_some] at hg
    rcases id with _ | n <;> simp [State.reset] at hg
    subst hg
    exact Nat.zero_le _
theorem witness_MapWithoutResourcesAborts : sFull.allocOK (sFull.regNat 1) = false ∧
    ({ sFull.mem with free := [] } : Memory).free = [] ∧ sFull.cfg.maxIds ≤ sFull.mem.segs.length := by decide
theorem witness_UnmapReleasesTheSegment : (stateM 0#32 [(2, 3#32)]).regNat 2 ≠ 0 ∧
    (stateM 0#32 [(2, 3#32)]).mem.live ((stateM 0#32 [(2, 3#32)]).regNat 2) = true := by decide
theorem witness_BadUnmapAborts : (stateM 0#32 []).regNat 2 = 0 ∧
    (stateM 0#32 [(2, 4#32)]).mem.live ((stateM 0#32 [(2, 4#32)]).regNat 2) = false := by decide
/-- SM32's kind of chain, in M: MAP gives 2, a store into it, UNMAP 2, MAP gives 2 again. -/
theorem witness_MapAfterUnmapReusesTheIdZeroed : ∃ t u v z : State,
    StateInv (stateM 0#32 [(1, 3#32)]) ∧ (stateM 0#32 [(1, 3#32)]).run = .running ∧
    exec (.map 2 1) (stateM 0#32 [(1, 3#32)]) = .next t ∧ t.run = .running ∧
    exec (.sstore 2 0 1) t = .next u ∧ u.run = .running ∧
    u.reg 2 = t.reg 2 ∧ exec (.unmap 2) u = .next v ∧ v.run = .running ∧
    exec (.map 6 1) v = .next z ∧ z.run = .running ∧
    ∃ y, exec (.sload 7 6 0) z = .next y ∧ y.run = .running :=
  ⟨_, _, _, _, stateM_inv _ _, rfl, rfl, rfl, rfl, rfl, rfl, rfl, rfl, rfl, rfl, _, rfl, rfl⟩
theorem witness_HaltStopsTheRun : (stateM 0x7FFFFFFF#32 []).run = .running ∧
    (stateM 0x7FFFFFFF#32 []).mem.read 0 4 = .ok 0x7FFFFFFF#32 ∧ (0x7FFFFFFF#32).toNat / 2 ^ 28 = 7 := by decide
theorem witness_LoadprogJumps : ((stateM 0#32 []).reg 0).toNat = 0 := by decide
theorem witness_LoadprogCopiesTheSource : (sAdd.reg 1).toNat ≠ 0 ∧
    ((stateM 0#32 [(2, 1#32)]).reg 2).toNat ≠ 0 ∧
    (stateM 0#32 [(2, 1#32)]).mem.live ((stateM 0#32 [(2, 1#32)]).regNat 2) = true ∧
    (stateM 0#32 [(2, 1#32)]).allocOK ((stateM 0#32 [(2, 1#32)]).mem.len 1) = true := by decide
theorem witness_BadLoadprogAborts :
    (((stateM 0#32 [(2, 2#32)]).reg 2).toNat ≠ 0 ∧ (stateM 0#32 [(2, 2#32)]).mem.live 2 = false) ∧
    ((sFull.setReg 2 1#32).reg 2).toNat ≠ 0 ∧ (sFull.setReg 2 1#32).mem.live 1 = true ∧
    (sFull.setReg 2 1#32).allocOK ((sFull.setReg 2 1#32).mem.len 1) = false := by decide

/-- M with `SSTORE r2, r3, r4` at index 4, which stores HALT at `(0, 5)`. -/
def sSelf : State := stateM 0x2000009C#32 [(3, 5#32), (4, 0x70000000#32)]

theorem witness_StoreIsSeenByTheNextFetch : ∃ t, StateInv sSelf ∧ sSelf.run = .running ∧
    sSelf.mem.read 0 sSelf.pc.toNat = .ok 0x2000009C#32 ∧ decode 0x2000009C#32 = .ok (.sstore 2 3 4) ∧
    storeAddress 2 3 sSelf = (0, sSelf.pc.toNat + 1) ∧ sSelf.pc.toNat + 1 < sSelf.mem.len 0 ∧
    decode (sSelf.reg 4) = .ok .halt ∧ step sSelf = .next t :=
  ⟨_, stateM_inv _ _, rfl, by decide, by decide, by decide, by decide, by decide, rfl⟩
theorem witness_LoadedProgramRunsNext : ∃ t, (stateM 0#32 [(2, 1#32)]).run = .running ∧
    ((stateM 0#32 [(2, 1#32)]).reg 2).toNat ≠ 0 ∧
    (stateM 0#32 [(2, 1#32)]).mem.segment 1 = some (Segment.ofWords [0xA#32, 0x14#32, 0x1E#32]) ∧
    exec (.loadprog 2 5) (stateM 0#32 [(2, 1#32)]) = .next t ∧ t.run = .running ∧
    (Segment.ofWords [0xA#32, 0x14#32, 0x1E#32]).words[0]? = some 0xA#32 ∧ decode 0xA#32 = .ok (.cmov 0 1 2) ∧
    (Segment.ofWords [0xA#32, 0x14#32, 0x1E#32]).words[3]? = none :=
  ⟨_, rfl, by decide, by decide, rfl, rfl, by decide, by decide, by decide⟩
theorem witness_OutEmitsOneByteOrNothing : ((stateM 0#32 [(0, 255#32)]).reg 0).toNat ≤ 255 ∧
    255 < ((stateM 0#32 [(0, 256#32)]).reg 0).toNat := by decide
theorem witness_InWritesTheHostsAnswer : (InputEnv.standard [0xFF#8]).answers.head? = some (.byte 0xFF#8) ∧
    (InputEnv.standard []).answers = [] ∧ (InputEnv.standard []).thereafter = some .eos := by decide
theorem witness_InWaitsForTheHost :
    Waiting { stateM 0xB0000001#32 [] with input := { answers := [], thereafter := none } } :=
  ⟨rfl, rfl, 0xB0000001#32, 1, by decide, by decide⟩
theorem witness_ExitStatusFollowsTheRunState : StateInv sAdd := stateM_inv _ _

end Sys2Proof.Tests
end

section
/-! 30_encoding.md: the decoder and the encoder against the arithmetic of the two layouts. -/

namespace Sys2Proof

/-! ## The decoder's fields by arithmetic on the word's number (R91, R92) -/

theorem fieldA_eq_regMod (w : Word) : fieldA w = regMod (w.toNat / 2 ^ 6) := Fin.ext (val_fieldA w)

theorem fieldB_eq_regMod (w : Word) : fieldB w = regMod (w.toNat / 2 ^ 3) := Fin.ext (val_fieldB w)

theorem fieldC_eq_regMod (w : Word) : fieldC w = regMod w.toNat := Fin.ext (val_fieldC w)

theorem immA_eq_regMod (w : Word) : immA w = regMod (w.toNat / 2 ^ 25) := Fin.ext (val_immA w)

theorem immField_eq_ofNat (w : Word) : immField w = BitVec.ofNat 25 (w.toNat % 2 ^ 25) := by
  rw [← toNat_immField, BitVec.ofNat_toNat, BitVec.setWidth_eq]

/-- Both sides dispatch on the same number, the word's opcode, and read the same operand numbers in each arm. -/
theorem toOption_decode (w : Word) : (decode w).toOption = decodeNumber w.toNat := by
  simp only [decode, decodeNumber, toNat_opcode, fieldA_eq_regMod, fieldB_eq_regMod, fieldC_eq_regMod, immA_eq_regMod,
    immField_eq_ofNat]
  generalize w.toNat / 2 ^ 28 = op
  match op with
  | 0 | 1 | 2 | 3 | 4 | 5 | 6 | 7 | 8 | 9 | 10 | 11 | 12 | 13 => rfl
  | _ + 14 => rfl

/-! ## The encoder's words -/

theorem toNat_encode (i : Instr) : (encode i).toNat = wordNumber i := by
  cases i with
  | cmov a b c | sload a b c | sstore a b c | add a b c | mul a b c | div a b c | nand a b c =>
    exact toNat_standardWord _ a b c
  | loadi a imm => exact toNat_immediateWord _ a imm
  | halt | map b c | loadprog b c | unmap c | out c | inp c =>
    simp [encode, Instr.opcode, toNat_standardWord, wordNumber]

theorem opcode_encode (i : Instr) : opcode (encode i) = i.opcode := by
  cases i with
  | loadi a imm => exact opcode_immediateWord _ a imm
  | _ => exact opcode_standardWord ..

/-- The opcode of the canonical word selects the arm of `i`, and each operand field of its layout holds `i`'s operand;
a field that `i` does not name is read by nothing. -/
theorem decode_encode (i : Instr) : decode (encode i) = .ok i := by
  unfold decode
  rw [opcode_encode]
  cases i with
  | cmov a b c | sload a b c | sstore a b c | add a b c | mul a b c | div a b c | nand a b c =>
    simp [Instr.opcode, encode, fieldA_standardWord, fieldB_standardWord, fieldC_standardWord]
  | map b c | loadprog b c => simp [Instr.opcode, encode, fieldB_standardWord, fieldC_standardWord]
  | unmap c | out c | inp c => simp [Instr.opcode, encode, fieldC_standardWord]
  | halt => rfl
  | loadi a imm => simp [Instr.opcode, encode, immA_immediateWord, immField_immediateWord]

/-- Settles O1: the fields of every canonical word are the opcode and operands of its instruction. -/
theorem decodeOfEncode : Obligations.DecodeOfEncode := decode_encode

/-- Settles O2: the decoder's fields and the encoder's words, both as numbers. -/
theorem decodeReadsTheFieldsOfEveryWord : Obligations.DecodeReadsTheFieldsOfEveryWord :=
  ⟨toOption_decode, toNat_encode⟩

end Sys2Proof
end

section
/-! 40_execution_cycle.md: an instruction's "Encoding" line as a fact about the opcode number, and HALT. -/

namespace Sys2Proof

/-- The test `w & 0xF0000000 = match` of an "Encoding" line (30_encoding.md R96) is one on the opcode number. -/
theorem encodedAs_iff {n : Nat} (hn : n < 16) (f : Word → Instr) :
    EncodedAs n f ↔ ∀ w : Word, w.toNat / 2 ^ 28 = n → decode w = .ok (f w) := by
  simp only [EncodedAs, masked_eq_iff _ n hn, toNat_opcode]

theorem decode_of_opcode_halt {w : Word} (h : w.toNat / 2 ^ 28 = 7) : decode w = .ok .halt := by
  simp only [decode, toNat_opcode, h]

namespace Machine

theorem exec_halt (s : State) : exec .halt s = .next s.halt := exec_of_completes .halt

theorem halt_sameMemory (s : State) : SameMemory s s.halt := ⟨halt_mem s, fun _ _ => by rw [halt_mem]⟩

theorem halt_sameHost (s : State) : SameHost s s.halt :=
  ⟨halt_output s, halt_received s, halt_input s, halt_cfg s, halt_asking s⟩

theorem step_of_opcode_halt {s : State} {w : Word} (hr : s.run = .running) (hw : s.mem.read 0 s.pc.toNat = .ok w)
    (h : w.toNat / 2 ^ 28 = 7) : step s = .next s.halt :=
  (step_of_decoded hr (fetch_word.2 hw) (decode_of_opcode_halt h)).trans (exec_halt s)

end Machine

open Machine

/-- Settles O48: every word of opcode 7 decodes to HALT, whose next state is `s.halt`. -/
theorem haltStopsTheRun : Obligations.HaltStopsTheRun :=
  ⟨(encodedAs_iff (by decide) _).2 fun _ => decode_of_opcode_halt,
    fun s => ⟨s.halt, exec_halt s, halt_run s, halt_pc s, halt_cause s, halt_reg s, halt_sameMemory s, halt_sameHost s,
      fun _ => step_of_opcode_halt⟩⟩

end Sys2Proof
end

section
/-! 41_move_and_immediate.md: CMOV and LOADI, and the frame of an instruction that writes one register. -/

namespace Sys2Proof

theorem decode_of_opcode_cmov {w : Word} (h : w.toNat / 2 ^ 28 = 0) :
    decode w = .ok (.cmov (fieldA w) (fieldB w) (fieldC w)) := by
  simp only [decode, toNat_opcode, h]

theorem decode_of_opcode_loadi {w : Word} (h : w.toNat / 2 ^ 28 = 13) :
    decode w = .ok (.loadi (immA w) (immField w)) := by
  simp only [decode, toNat_opcode, h]

namespace Machine

theorem toNat_zextImm (imm : BitVec 25) : (zextImm imm).toNat = imm.toNat :=
  BitVec.toNat_setWidth_of_le (by decide)

/-! ## The frame of a register write -/

/-- The model's shape of every instruction that only writes a register: the write, then `pc + 1`. -/
theorem setReg_advance_writesOnlyReg (r : Reg) (v : Word) (s : State) : WritesOnlyReg r s (s.setReg r v).advance :=
  ⟨fun _ hq => reg_setReg_ne s r v hq, advance_pc_toNat (s.setReg r v), ⟨rfl, rfl⟩, ⟨rfl, fun _ _ => rfl⟩,
    rfl, rfl, rfl, rfl, rfl⟩

/-- An instruction that only advances `pc` leaves every register, so it meets the frame of any destination. -/
theorem advance_writesOnlyReg (r : Reg) (s : State) : WritesOnlyReg r s s.advance :=
  ⟨fun q _ => advance_reg s q, advance_pc_toNat s, ⟨rfl, rfl⟩, ⟨rfl, fun _ _ => rfl⟩, rfl, rfl, rfl, rfl, rfl⟩

end Machine

open Machine

/-- Settles O33: R140's two branches, by the test of `x[c]`. -/
theorem cmovMovesWhenNonZero : Obligations.CmovMovesWhenNonZero := by
  refine ⟨(encodedAs_iff (by decide) _).2 fun _ => decode_of_opcode_cmov, fun a b c s => ?_⟩
  by_cases h : s.reg c = 0#32
  · have hn : (s.reg c).toNat = 0 := BitVec.toNat_eq.1 h
    exact ⟨s.advance, exec_of_completes (.cmovFalse h), fun h0 => absurd hn h0, fun _ => advance_reg s a,
      advance_writesOnlyReg a s⟩
  · have hn : (s.reg c).toNat ≠ 0 := fun h0 => h (BitVec.eq_of_toNat_eq h0)
    exact ⟨(s.setReg a (s.reg b)).advance, exec_of_completes (.cmovTrue h), fun _ => reg_setReg_same s a (s.reg b),
      fun h0 => absurd h0 hn, setReg_advance_writesOnlyReg a (s.reg b) s⟩

/-- Settles O34: the register holds `zextImm imm`, whose number is that of the immediate (R94, R141). -/
theorem loadiWritesTheZeroExtendedImmediate : Obligations.LoadiWritesTheZeroExtendedImmediate := by
  refine ⟨(encodedAs_iff (by decide) _).2 fun _ => decode_of_opcode_loadi, fun a imm s => ?_⟩
  refine ⟨(s.setReg a (zextImm imm)).advance, exec_of_completes .loadi, ?_,
    setReg_advance_writesOnlyReg a (zextImm imm) s⟩
  rw [advance_reg, reg_setReg_same, toNat_zextImm]

end Sys2Proof
end

section
/-! 43_arithmetic_logic.md: the results of ADD, MUL and NAND. -/

namespace Sys2Proof

theorem decode_of_opcode_add {w : Word} (h : w.toNat / 2 ^ 28 = 3) :
    decode w = .ok (.add (fieldA w) (fieldB w) (fieldC w)) := by
  simp only [decode, toNat_opcode, h]

theorem decode_of_opcode_mul {w : Word} (h : w.toNat / 2 ^ 28 = 4) :
    decode w = .ok (.mul (fieldA w) (fieldB w) (fieldC w)) := by
  simp only [decode, toNat_opcode, h]

theorem decode_of_opcode_nand {w : Word} (h : w.toNat / 2 ^ 28 = 6) :
    decode w = .ok (.nand (fieldA w) (fieldB w) (fieldC w)) := by
  simp only [decode, toNat_opcode, h]

namespace Machine

theorem toNat_addWord (u v : Word) : (addWord u v).toNat = (u.toNat + v.toNat) % 2 ^ 32 := BitVec.toNat_add u v

theorem toNat_mulWord (u v : Word) : (mulWord u v).toNat = (u.toNat * v.toNat) % 2 ^ 32 := BitVec.toNat_mul u v

/-- The bound is needed: past the width the complement has no bit, so it reads `false` there (R173, `i = 0..31`). -/
theorem getLsbD_nandWord (u v : Word) {k : Nat} (h : k < 32) :
    (nandWord u v).getLsbD k = !(u.getLsbD k && v.getLsbD k) := by
  rw [nandWord, BitVec.getLsbD_not, BitVec.getLsbD_and, decide_eq_true h, Bool.true_and]

/-- An instruction that completes by writing `v` to `r` and advancing: its next state, the value and the frame. -/
theorem exec_of_setReg_advance {i : Instr} {r : Reg} {v : Word} {s : State}
    (h : Completes i s (s.setReg r v).advance) :
    ∃ t, exec i s = .next t ∧ t.reg r = v ∧ WritesOnlyReg r s t :=
  ⟨(s.setReg r v).advance, exec_of_completes h, reg_setReg_same s r v, setReg_advance_writesOnlyReg r v s⟩

end Machine

open Machine

/-- Settles O35: the destination holds `addWord` or `mulWord` of the sources, whose numbers are the sum and the product
modulo 2^32 (R170, R171). -/
theorem addAndMulWrap : Obligations.AddAndMulWrap := by
  refine ⟨(encodedAs_iff (by decide) _).2 fun _ => decode_of_opcode_add,
    (encodedAs_iff (by decide) _).2 fun _ => decode_of_opcode_mul, fun a b c s => ⟨?add, ?mul⟩⟩
  case add =>
    obtain ⟨t, he, hv, hframe⟩ := exec_of_setReg_advance (.add (a := a) (b := b) (c := c) (s := s))
    exact ⟨t, he, hv ▸ toNat_addWord (s.reg b) (s.reg c), hframe⟩
  case mul =>
    obtain ⟨t, he, hv, hframe⟩ := exec_of_setReg_advance (.mul (a := a) (b := b) (c := c) (s := s))
    exact ⟨t, he, hv ▸ toNat_mulWord (s.reg b) (s.reg c), hframe⟩

/-- Settles O38: the destination holds `nandWord` of the sources, read bit by bit (R173). -/
theorem nandComplementsTheConjunction : Obligations.NandComplementsTheConjunction := by
  refine ⟨(encodedAs_iff (by decide) _).2 fun _ => decode_of_opcode_nand, fun a b c s => ?_⟩
  obtain ⟨t, he, hv, hframe⟩ := exec_of_setReg_advance (.nand (a := a) (b := b) (c := c) (s := s))
  exact ⟨t, he, fun k hk => hv ▸ getLsbD_nandWord (s.reg b) (s.reg c) hk, hframe⟩

end Sys2Proof
end

section
/-! 45_io.md: OUT, which changes the output and `pc` only. -/

namespace Sys2Proof

theorem decode_of_opcode_out {w : Word} (h : w.toNat / 2 ^ 28 = 10) : decode w = .ok (.out (fieldC w)) := by
  simp only [decode, toNat_opcode, h]

namespace Machine

/-! ## The test of OUT and the byte it emits (R200) -/

/-- The test is unsigned on all 32 bits. -/
theorem le_outMax_iff (v : Word) : v ≤ outMax ↔ v.toNat ≤ 255 := BitVec.le_def

theorem toNat_lowByte {v : Word} (h : v.toNat ≤ 255) : (v.setWidth 8).toNat = v.toNat := by
  rw [BitVec.toNat_setWidth, Nat.mod_eq_of_lt (Nat.lt_succ_of_le h)]

/-! ## The frame of OUT -/

/-- Nothing but the output and `pc` changes, and `pc` advances. -/
def ChangesOnlyOutput (s t : State) : Prop :=
  AllRegsSame s t ∧ PcAdvanced s t ∧ SameStatus s t ∧ SameMemory s t ∧
    t.received = s.received ∧ t.input = s.input ∧ t.cfg = s.cfg ∧ t.asking = s.asking

theorem advance_changesOnlyOutput (s : State) : ChangesOnlyOutput s s.advance :=
  ⟨advance_reg s, advance_pc_toNat s, ⟨rfl, rfl⟩, ⟨rfl, fun _ _ => rfl⟩, rfl, rfl, rfl, rfl⟩

/-- `s.emit b` agrees with `s` in every field that the frame names. -/
theorem emit_advance_changesOnlyOutput (s : State) (b : Byte) : ChangesOnlyOutput s (s.emit b).advance :=
  advance_changesOnlyOutput (s.emit b)

end Machine

open Machine

/-- Settles O54: R200's two branches, by the test of `x[c]` against 255. -/
theorem outEmitsOneByteOrNothing : Obligations.OutEmitsOneByteOrNothing := by
  refine ⟨(encodedAs_iff (by decide) _).2 fun _ => decode_of_opcode_out, fun c s => ?_⟩
  by_cases h : (s.reg c).toNat ≤ 255
  · exact ⟨(s.emit ((s.reg c).setWidth 8)).advance, exec_of_completes (.outEmit ((le_outMax_iff _).2 h)),
      fun _ => ⟨(s.reg c).setWidth 8, toNat_lowByte h, rfl⟩, fun hgt => absurd h (Nat.not_le_of_gt hgt),
      emit_advance_changesOnlyOutput s _⟩
  · exact ⟨s.advance, exec_of_completes (.outSkip fun hle => h ((le_outMax_iff _).1 hle)),
      fun hle => absurd hle h, fun _ => advance_output s, advance_changesOnlyOutput s⟩

end Sys2Proof
end

section
/-! 70_reset_and_hazards.md: what the host's reset installs, and the first step after it. -/

namespace Sys2Proof.Machine

variable (s : State) (e : InputEnv) (W : List Word)

@[simp] theorem hostReset_pc : (s.hostReset e W).pc = 0#32 := rfl

@[simp] theorem hostReset_run : (s.hostReset e W).run = .running := rfl

@[simp] theorem hostReset_segment_zero : (s.hostReset e W).mem.segment 0 = some (Segment.ofWords W) := rfl

theorem hostReset_read {off : Nat} {w : Word} (h : W[off]? = some w) : (s.hostReset e W).mem.read 0 off = .ok w :=
  memory_read_eq_ok.2 ⟨Segment.ofWords W, hostReset_segment_zero s e W, (segment_read_ofWords W off).trans h⟩

/-- The first fetch is at `(0, 0)`, so it takes the image's first word. -/
theorem hostReset_fetch (w : Word) : (s.hostReset e (w :: W)).fetch = .word w :=
  fetch_word.2 (hostReset_read s e (w :: W) (off := 0) rfl)

end Sys2Proof.Machine

namespace Sys2Proof

open Machine

/-- Settles O8: the reset core is running and its first fetch is the image's first word (R251). -/
theorem firstInstructionIsTheFirstWord : Obligations.FirstInstructionIsTheFirstWord := by
  intro s e w W i _ hdecode
  have hpc : (s.hostReset e (w :: W)).pc.toNat = 0 := by rw [hostReset_pc]; rfl
  have hread : (s.hostReset e (w :: W)).mem.read 0 0 = .ok w := hostReset_read s e (w :: W) rfl
  exact ⟨hpc, hread, step_of_decoded (hostReset_run s e (w :: W)) (hostReset_fetch s e W w) hdecode⟩

end Sys2Proof
end

section
/-! 10_state.md section 7 and 20_memory.md section 3: the clauses of the invariant that speak of memory, kept by each
operation of the segment manager. -/

namespace Sys2Proof.Machine

/-! ## The words a slot holds -/

/-- The number of words a slot of the table holds: none in a tombstone (20_memory.md R61). -/
def slotWords : Slot → Nat
  | .seg g => g.length
  | .tomb => 0

section
variable {m : Memory} {id bound : Nat} {g : Segment}

/-- A bound on the live segments' lengths is one on the words of every slot. -/
theorem segment_length_le_iff :
    (∀ id g, m.segment id = some g → g.length ≤ bound) ↔ ∀ e ∈ m.segs, slotWords e ≤ bound := by
  constructor
  · intro h e he
    obtain ⟨id, hid⟩ := List.mem_iff_getElem?.1 he
    cases e with
    | seg g => exact h id g (memory_segment_eq_some.2 hid)
    | tomb => exact Nat.zero_le bound
  · intro h id g hg
    exact h (.seg g) (List.mem_of_getElem? (memory_segment_eq_some.1 hg))

theorem memory_live_of_segment (h : m.segment id = some g) : m.live id = true := memory_live_iff.2 ⟨g, h⟩

theorem memory_live_eq_false : m.live id = false ↔ m.segment id = none := by
  simp [Memory.live]

theorem slot_ne_tomb_of_live (h : m.live id = true) : m.segs[id]? ≠ some .tomb := by
  obtain ⟨g, hg⟩ := memory_live_iff.1 h
  simp [memory_segment_eq_some.1 hg]

end

/-- A register value is a legal segment length (10_state.md R36; log entry 16). -/
theorem regNat_le_maxImageWords (s : State) (i : Reg) : s.regNat i ≤ maxImageWords :=
  Nat.le_of_lt_succ (s.reg i).isLt

/-! ## The invariant of memory -/

/-- The clauses of `StateInv` that speak of memory only, with `maxIds` for `MAX_IDS`. -/
structure MemInv (maxIds : Nat) (m : Memory) : Prop where
  wf : m.wf = true
  programLive : m.live 0 = true
  freeNodup : m.free.Nodup
  freeIffTomb : ∀ id, id ∈ m.free ↔ m.segs[id]? = some .tomb
  tableBound : m.segs.length ≤ maxIds
  lengthBound : ∀ e ∈ m.segs, slotWords e ≤ maxImageWords

theorem StateInv.memInv {s : State} (h : StateInv s) : MemInv s.cfg.maxIds s.mem :=
  ⟨h.memWf, h.programLive, h.freeNodup, h.freeIffTomb, h.tableBound, segment_length_le_iff.1 h.lengthBound⟩

namespace MemInv

variable {maxIds id n off : Nat} {m m' : Memory} {g : Segment} {v : Word} {s : State} {rest : List Nat}

/-- The top of the free-id stack is an id of the table, not 0, under which there is no segment. -/
theorem free_top (h : MemInv maxIds m) (hf : m.free = id :: rest) :
    m.segs[id]? = some .tomb ∧ id < m.segs.length ∧ id ≠ 0 ∧ m.live id = false := by
  have htomb : m.segs[id]? = some .tomb := (h.freeIffTomb id).1 (hf ▸ List.mem_cons_self)
  have hdead : m.live id = false := Bool.eq_false_iff.2 fun hl => slot_ne_tomb_of_live hl htomb
  refine ⟨htomb, (List.getElem?_eq_some_iff.1 htomb).1, ?_, hdead⟩
  rintro rfl
  exact slot_ne_tomb_of_live h.programLive htomb

/-- Where segment 0 stays live and the new stack lists exactly the tombstones of the new table, one slot may be
replaced. -/
theorem setSlot (h : MemInv maxIds m) {e : Slot} {free : List Nat} (he : e.wf = true)
    (hlen : slotWords e ≤ maxImageWords) (hzero : id = 0 → e ≠ .tomb) (hnodup : free.Nodup)
    (hfree : ∀ j, j ∈ free ↔ (m.segs.set id e)[j]? = some .tomb) :
    MemInv maxIds { m.setSlot id e with free := free } where
  wf := setSlot_wf h.wf id he
  programLive := by
    have hpos := memory_live_lt h.programLive
    by_cases hid : id = 0
    · subst hid
      cases e with
      | seg g => exact memory_live_of_segment (segment_setSlot_same m g hpos)
      | tomb => exact absurd rfl (hzero rfl)
    · obtain ⟨g, hg⟩ := memory_live_iff.1 h.programLive
      exact memory_live_of_segment ((segment_setSlot_ne m e (Ne.symm hid)).trans hg)
  freeNodup := hnodup
  freeIffTomb := hfree
  tableBound := by simpa using h.tableBound
  lengthBound := fun f hf => by
    rcases List.mem_or_eq_of_mem_set hf with hf | rfl
    · exact h.lengthBound f hf
    · exact hlen

/-- A live segment may be replaced by another one. -/
theorem replace (h : MemInv maxIds m) (hlive : m.live id = true) (hg : g.wf = true)
    (hlen : g.length ≤ maxImageWords) : MemInv maxIds (m.setSlot id (.seg g)) := by
  refine h.setSlot (e := .seg g) hg hlen (fun _ => Slot.noConfusion) h.freeNodup fun j => ?_
  rw [h.freeIffTomb, List.getElem?_set]
  by_cases hj : id = j
  · subst hj
    have hlt := memory_live_lt hlive
    simpa [hlt] using slot_ne_tomb_of_live hlive
  · simp [hj]

theorem of_write (h : MemInv maxIds m) (hw : m.write id off v = .ok m') : MemInv maxIds m' := by
  obtain ⟨g, g', hg, hgw, rfl⟩ := memory_write_ok hw
  obtain ⟨-, hlen, -, hkeep⟩ := segment_write_spec hgw
  exact h.replace (memory_live_of_segment hg) (hkeep (segment_wf_of_memory h.wf hg)).2
    (hlen ▸ segment_length_le_iff.2 h.lengthBound id g hg)

theorem of_unmap (h : MemInv maxIds m) (hu : m.unmap id = .ok m') : MemInv maxIds m' := by
  obtain ⟨h0, hlive, rfl⟩ := memory_unmap_ok hu
  have hfresh : id ∉ m.free := fun hmem => slot_ne_tomb_of_live hlive ((h.freeIffTomb id).1 hmem)
  refine h.setSlot rfl (Nat.zero_le _) (fun hid => absurd hid h0) (List.nodup_cons.2 ⟨hfresh, h.freeNodup⟩) fun j => ?_
  rw [List.mem_cons, h.freeIffTomb, List.getElem?_set]
  by_cases hj : id = j
  · subst hj
    simp [memory_live_lt hlive]
  · simp [hj, Ne.symm hj]

theorem of_segMap (h : MemInv s.cfg.maxIds s.mem) (hn : n ≤ maxImageWords) (hm : s.segMap n = .ok (id, m)) :
    MemInv s.cfg.maxIds m := by
  obtain ⟨-, ⟨rest, hf, rfl⟩ | ⟨hf, hlt, rfl, rfl⟩⟩ := segMap_ok hm
  case inl =>
    obtain ⟨hnotin, hnodup⟩ := List.nodup_cons.1 (hf ▸ h.freeNodup)
    refine h.setSlot (e := .seg (Segment.zeros n)) (zeros_wf n) hn (fun _ => Slot.noConfusion) hnodup fun j => ?_
    have hstack := h.freeIffTomb j
    rw [hf, List.mem_cons] at hstack
    rw [List.getElem?_set]
    by_cases hj : id = j
    · subst hj
      simp [hnotin, (h.free_top hf).2.1]
    · simpa [hj, Ne.symm hj] using hstack
  case inr =>
    refine ⟨segMap_wf h.wf hm, ?_, h.freeNodup, fun j => ?_, by simpa using hlt, fun e he => ?_⟩
    · obtain ⟨g, hg⟩ := memory_live_iff.1 h.programLive
      refine memory_live_of_segment (g := g) (memory_segment_eq_some.2 ?_)
      exact (List.getElem?_append_left (memory_live_lt h.programLive)).trans (memory_segment_eq_some.1 hg)
    · have hstack := h.freeIffTomb j
      rcases Nat.lt_or_ge j s.mem.segs.length with hj | hj
      · simpa [List.getElem?_append_left hj] using hstack
      · rw [List.getElem?_append_right hj]
        have hnone : s.mem.segs[j]? = none := List.getElem?_eq_none hj
        simp [hstack, hnone, List.getElem?_singleton]
    · rcases List.mem_append.1 he with he | he
      · exact h.lengthBound e he
      · obtain rfl := List.mem_singleton.1 he
        exact hn

theorem of_segReplaceZero (h : MemInv maxIds s.mem) (hr : s.segReplaceZero id = .ok m) : MemInv maxIds m := by
  obtain ⟨-, rfl⟩ | ⟨-, g, hg, -, rfl⟩ := segReplaceZero_ok hr
  · exact h
  · exact h.replace h.programLive (segment_wf_of_memory h.wf hg) (segment_length_le_iff.2 h.lengthBound id g hg)

end MemInv
end Sys2Proof.Machine
end

section
/-! 10_state.md sections 5 and 7: what each instruction and each step does to memory, run state and parameters, and that
every step keeps the invariant. -/

namespace Sys2Proof.Machine

/-! ## What an instruction that completes does to each part of the state -/

/-- The memory after an instruction: the four instructions of 20_memory.md R51 go through the segment manager, and
every other one keeps memory. -/
inductive MemoryEffect (s : State) : Instr → Memory → Prop where
  | keep {i} : MemoryEffect s i s.mem
  | write {a b c m} : s.mem.write (s.regNat a) (s.regNat b) (s.reg c) = .ok m → MemoryEffect s (.sstore a b c) m
  | map {b c id m} : s.segMap (s.regNat c) = .ok (id, m) → MemoryEffect s (.map b c) m
  | unmap {c m} : s.mem.unmap (s.regNat c) = .ok m → MemoryEffect s (.unmap c) m
  | load {b c m} : s.segReplaceZero (s.regNat b) = .ok m → MemoryEffect s (.loadprog b c) m

variable {s t : State} {i : Instr} {w : Word} {k : Cause}

theorem completes_memoryEffect (h : Completes i s t) : MemoryEffect s i t.mem := by
  cases h with
  | sstore hw => exact .write hw
  | map hm => exact .map hm
  | unmap hu => exact .unmap hu
  | load _ hr => exact .load hr
  | _ => exact .keep

theorem exec_memoryEffect (h : exec i s = .next t) : MemoryEffect s i t.mem := by
  rcases exec_next.1 h with hc | ⟨k, -, rfl⟩
  · exact completes_memoryEffect hc
  · exact .keep

theorem completes_cfg (h : Completes i s t) : t.cfg = s.cfg := by cases h <;> rfl

theorem completes_cause (h : Completes i s t) : t.cause = s.cause := by cases h <;> rfl

theorem completes_run (h : Completes i s t) : t.run = if i = .halt then .halted else s.run := by cases h <;> rfl

/-- No completion ends a run in `Aborted` (60_exceptions.md R210). -/
theorem completes_not_aborted (h : Completes i s t) (hr : s.run = .running) : t.run ≠ .aborted := by
  rw [completes_run h, hr]
  split <;> exact RunState.noConfusion

/-- A request is outstanding after a completion because an IN waits, or because it was before and no IN has run. -/
theorem completes_asking_true (h : Completes i s t) (ha : t.asking = true) :
    (∃ c, i = .inp c ∧ t = s.ask) ∨ (s.asking = true ∧ ∀ c, i ≠ .inp c) := by
  cases h with
  | inpAnswer _ => exact Bool.noConfusion ha
  | inpWait _ => exact .inl ⟨_, rfl, rfl⟩
  | _ => exact .inr ⟨ha, fun _ => Instr.noConfusion⟩

theorem faults_ne_inp (h : Faults i s k) (c : Reg) : i ≠ .inp c := by cases h <;> exact Instr.noConfusion

/-! ## The invariant -/

theorem MemInv.of_memoryEffect {m : Memory} (h : MemInv s.cfg.maxIds s.mem) (he : MemoryEffect s i m) :
    MemInv s.cfg.maxIds m := by
  cases he with
  | keep => exact h
  | write hw => exact h.of_write hw
  | map hm => exact h.of_segMap (regNat_le_maxImageWords s _) hm
  | unmap hu => exact h.of_unmap hu
  | load hr => exact h.of_segReplaceZero hr

/-- Memory's clauses and the other four make the invariant. -/
theorem MemInv.stateInv (h : MemInv s.cfg.maxIds s.mem) (hcfg : s.cfg.wf = true)
    (hcause : s.cause = none ↔ s.run ≠ .aborted)
    (hask : s.asking = true →
      s.run = .running ∧ ∃ w c, s.mem.read 0 s.pc.toNat = .ok w ∧ decode w = .ok (.inp c)) : StateInv s :=
  ⟨h.wf, h.programLive, h.freeNodup, h.freeIffTomb, h.tableBound, hcfg, segment_length_le_iff.2 h.lengthBound, hcause,
    hask⟩

namespace StateInv

/-- No request is outstanding where the core does not stand at an IN. -/
theorem not_asking (h : StateInv s) (hf : ∀ w c, s.fetch = .word w → decode w ≠ .ok (.inp c)) : s.asking = false := by
  refine Bool.eq_false_iff.2 fun ha => ?_
  obtain ⟨-, w, c, hw, hd⟩ := h.askingAtIn ha
  exact hf w c (fetch_word.2 hw) hd

theorem not_asking_of_decode (h : StateInv s) (hf : s.fetch = .word w) (hd : ∀ c, decode w ≠ .ok (.inp c)) :
    s.asking = false := by
  refine h.not_asking fun w' c hf' => ?_
  obtain rfl : w = w' := Fetched.word.inj (hf.symm.trans hf')
  exact hd c

/-- A fault changes `run` and `cause` only, and no request is outstanding where one is taken. -/
theorem raise (h : StateInv s) (k : Cause) (ha : s.asking = false) : StateInv (s.raise k) := by
  refine MemInv.stateInv (s := s.raise k) h.memInv h.cfgWf (by simp) fun ha' => ?_
  exact absurd (ha'.symm.trans ha) Bool.noConfusion

theorem of_completes (h : StateInv s) (hr : s.run = .running) (hf : s.fetch = .word w) (hd : decode w = .ok i)
    (hc : Completes i s t) : StateInv t := by
  refine MemInv.stateInv ?mem (completes_cfg hc ▸ h.cfgWf) ?cause fun ha => ?asking
  case mem =>
    rw [completes_cfg hc]
    exact h.memInv.of_memoryEffect (completes_memoryEffect hc)
  case cause =>
    have hnone : s.cause = none := h.causeIff.2 (by simp [hr])
    simp [completes_cause hc, hnone, completes_not_aborted hc hr]
  case asking =>
    rcases completes_asking_true hc ha with ⟨c, rfl, rfl⟩ | ⟨ha', hi⟩
    · exact ⟨hr, w, c, fetch_word.1 hf, hd⟩
    · have hnot := h.not_asking_of_decode hf fun c hd' => hi c (Except.ok.inj (hd.symm.trans hd'))
      exact absurd (ha'.symm.trans hnot) Bool.noConfusion

theorem of_step (h : StateInv s) (hstep : step s = .next t) : StateInv t := by
  rcases step_cases hstep with ⟨-, rfl⟩ | ⟨-, hf, rfl⟩ | ⟨-, w, e, hf, hd, rfl⟩ | ⟨hr, w, i, hf, hd, he⟩
  · exact h
  · exact h.raise _ (h.not_asking fun w c hf' => by simp [hf] at hf')
  · exact h.raise _ (h.not_asking_of_decode hf fun c => by simp [hd])
  · rcases exec_next.1 he with hc | ⟨k, hk, rfl⟩
    · exact h.of_completes hr hf hd hc
    · exact h.raise k (h.not_asking_of_decode hf fun c hd' =>
        faults_ne_inp hk c (Except.ok.inj (hd.symm.trans hd')))

end StateInv
end Sys2Proof.Machine

namespace Sys2Proof

open Machine

/-- Settles O12: `StateInv.of_step`, by the four things a step can be. -/
theorem stepKeepsTheInvariant : Obligations.StepKeepsTheInvariant := fun _ _ => StateInv.of_step

end Sys2Proof
end

section
/-! 30_encoding.md section 4 and 20_memory.md section 4: the canonical word of a decoded instruction, the ignored bits,
and the bytes of a program image. -/

namespace Sys2Proof

open Machine

variable {w v : Word} {i j : Instr}

/-! ## The opcode alone decides whether and as what a word decodes (R96, R97) -/

theorem opcode_of_decode (h : decode w = .ok i) : i.opcode = opcode w := by
  unfold decode at h
  split at h <;> cases h
  all_goals exact BitVec.eq_of_toNat_eq (Eq.symm ‹_›)

theorem toNat_opcode_of_decode (h : decode w = .ok i) : i.opcode.toNat = w.toNat / 2 ^ 28 := by
  rw [opcode_of_decode h, toNat_opcode]

theorem decode_error_iff : (∃ e, decode w = .error e) ↔ w.toNat / 2 ^ 28 = 14 ∨ w.toNat / 2 ^ 28 = 15 := by
  rw [← toNat_opcode]
  unfold decode
  split
  case h_15 =>
    have := (opcode w).isLt
    simp only [imp_false] at *
    simp only [Except.error.injEq, exists_eq', true_iff]
    omega
  all_goals simp [*]

theorem decode_eq_halt_iff : decode w = .ok .halt ↔ w.toNat / 2 ^ 28 = 7 :=
  ⟨fun h => (toNat_opcode_of_decode h).symm, decode_of_opcode_halt⟩

/-! ## The canonical word keeps the bits the instruction reads (R98, R99) -/

@[simp] theorem regBits_regOf (f : BitVec 3) : regBits (regOf f) = f := by
  simp [regBits, regOf]

/-- Masking a word with a mask of the opcode and of each operand field of the standard layout masks each field. -/
theorem and_fieldMasks (w : Word) (ma mb mc : BitVec 3) :
    w &&& (BitVec.allOnes 4 ++ 0#19 ++ ma ++ mb ++ mc) =
      opcode w ++ 0#19 ++ (regBits (fieldA w) &&& ma) ++ (regBits (fieldB w) &&& mb) ++
        (regBits (fieldC w) &&& mc) := by
  apply BitVec.eq_of_getLsbD_eq
  intro k hk
  simp only [opcode, fieldA, fieldB, fieldC, regBits_regOf, BitVec.getLsbD_and, BitVec.getLsbD_append,
    BitVec.getLsbD_extractLsb]
  interval_cases k <;> simp

theorem immediateWord_fields (w : Word) : immediateWord (opcode w) (immA w) (immField w) = w := by
  apply BitVec.eq_of_getLsbD_eq
  intro k hk
  simp only [immediateWord, opcode, immA, immField, regBits_regOf, BitVec.getLsbD_append, BitVec.getLsbD_extractLsb]
  interval_cases k <;> simp

/-- The mask of a field that the instruction reads keeps the field; the mask of one it does not name leaves zero. -/
theorem regBits_and_allOnes (r : Reg) : regBits r = regBits r &&& BitVec.allOnes 3 := BitVec.and_allOnes.symm

theorem regBits_and_zero (r : Reg) : regBits 0 = regBits r &&& 0#3 := BitVec.and_zero.symm

/-- A standard word whose operands are the masked fields of `w` is `w` masked. -/
theorem standardWord_eq_and {a b c : Reg} {ma mb mc : BitVec 3} (ha : regBits a = regBits (fieldA w) &&& ma)
    (hb : regBits b = regBits (fieldB w) &&& mb) (hc : regBits c = regBits (fieldC w) &&& mc) :
    standardWord (opcode w) a b c = w &&& (BitVec.allOnes 4 ++ 0#19 ++ ma ++ mb ++ mc) := by
  rw [and_fieldMasks, standardWord, ha, hb, hc]

theorem encode_of_decode (h : decode w = .ok i) : encode i = w &&& usedBits i := by
  have hop := opcode_of_decode h
  unfold decode at h
  split at h <;> cases h <;> simp only [encode, hop]
  case h_1 | h_2 | h_3 | h_4 | h_5 | h_6 | h_7 =>
    exact standardWord_eq_and (regBits_and_allOnes _) (regBits_and_allOnes _) (regBits_and_allOnes _)
  case h_8 => exact standardWord_eq_and (regBits_and_zero _) (regBits_and_zero _) (regBits_and_zero _)
  case h_9 | h_13 => exact standardWord_eq_and (regBits_and_zero _) (regBits_and_allOnes _) (regBits_and_allOnes _)
  case h_10 | h_11 | h_12 =>
    exact standardWord_eq_and (regBits_and_zero _) (regBits_and_zero _) (regBits_and_allOnes _)
  case h_14 => exact (immediateWord_fields w).trans BitVec.and_allOnes.symm

/-- Settles O3: the canonical word of each layout, field by field. -/
theorem encodeOfDecode : Obligations.EncodeOfDecode := fun _ _ => encode_of_decode

/-! ## Ignored bits (R98; log entry 15) -/

/-- `usedBits` by opcode number (R96): instructions of one opcode read the same bits. -/
def opcodeUsedBits (op : BitVec 4) : Word :=
  match op.toNat with
  | 7 => 0xF0000000#32
  | 8 | 12 => 0xF000003F#32
  | 9 | 10 | 11 => 0xF0000007#32
  | 13 => 0xFFFFFFFF#32
  | _ => 0xF00001FF#32

theorem usedBits_eq_opcodeUsedBits (i : Instr) : usedBits i = opcodeUsedBits i.opcode := by cases i <;> rfl

/-- Every instruction reads the whole opcode field. -/
theorem opcode_and_usedBits (w : Word) (i : Instr) : opcode (w &&& usedBits i) = opcode w := by
  have hall : opcode (usedBits i) = BitVec.allOnes 4 := by cases i <;> simp only [usedBits] <;> decide
  calc opcode (w &&& usedBits i) = opcode w &&& opcode (usedBits i) := BitVec.extractLsb_and
    _ = opcode w := by rw [hall, BitVec.and_allOnes]

theorem decode_ok_of_opcode_eq (hop : opcode v = opcode w) (h : decode w = .ok i) : ∃ j, decode v = .ok j := by
  cases hv : decode v with
  | ok j => exact ⟨j, rfl⟩
  | error e =>
    have hbad := decode_error_iff.1 ⟨e, hv⟩
    rw [← toNat_opcode, hop, toNat_opcode] at hbad
    obtain ⟨e', he'⟩ := decode_error_iff.2 hbad
    cases h.symm.trans he'

/-- Settles O4: both words have the canonical word of their instructions in common, which decodes to either. -/
theorem ignoredBitsChangeNothing : Obligations.IgnoredBitsChangeNothing := by
  intro w v i hw hbits
  have hop : opcode v = opcode w := by rw [← opcode_and_usedBits v i, hbits, opcode_and_usedBits]
  obtain ⟨j, hv⟩ := decode_ok_of_opcode_eq hop hw
  have hused : usedBits j = usedBits i := by
    rw [usedBits_eq_opcodeUsedBits, usedBits_eq_opcodeUsedBits, opcode_of_decode hv, opcode_of_decode hw, hop]
  have henc : encode j = encode i := by rw [encode_of_decode hv, encode_of_decode hw, hused, hbits]
  rw [hv, ← decode_encode j, henc, decode_encode]

/-- Settles O5: the decoder runs on each word. -/
theorem writtenWordsDecode : Obligations.WrittenWordsDecode := by
  unfold Obligations.WrittenWordsDecode
  decide

/-! ## The bytes of an image (20_memory.md R64) -/

theorem toNat_wordOfBytes (b0 b1 b2 b3 : Byte) :
    (wordOfBytes b0 b1 b2 b3).toNat =
      b0.toNat * 2 ^ 24 + b1.toNat * 2 ^ 16 + b2.toNat * 2 ^ 8 + b3.toNat := by
  simp only [wordOfBytes, toNat_append_add]
  omega

/-- The four bytes of the word at index `k`, the first most significant. -/
def imageWordAt (B : List Byte) (k : Nat) : Word :=
  wordOfBytes (B.getD (4 * k) 0#8) (B.getD (4 * k + 1) 0#8) (B.getD (4 * k + 2) 0#8) (B.getD (4 * k + 3) 0#8)

theorem wordsOfBytes_of_aligned (B : List Byte) (h : B.length % 4 = 0) :
    ∃ W, wordsOfBytes B = some W ∧ W.length = B.length / 4 ∧
      ∀ k, k < W.length → W.getD k 0#32 = imageWordAt B k := by
  induction B using wordsOfBytes.induct with
  | case1 => exact ⟨[], rfl, rfl, fun k hk => absurd hk (Nat.not_lt_zero k)⟩
  | case2 b0 b1 b2 b3 rest ih =>
    simp only [List.length_cons] at h
    obtain ⟨W, hW, hlen, hget⟩ := ih (by omega)
    refine ⟨wordOfBytes b0 b1 b2 b3 :: W, by simp [wordsOfBytes, hW], ?_, fun k hk => ?_⟩
    · simp only [List.length_cons, hlen]
      omega
    · cases k with
      | zero => rfl
      | succ k => exact hget k (Nat.lt_of_succ_lt_succ hk)
  | case3 B hnil hcons =>
    match B, h with
    | [], _ => exact (hnil rfl).elim
    | [_], h | [_, _], h | [_, _, _], h => simp at h
    | b0 :: b1 :: b2 :: b3 :: rest, _ => exact (hcons b0 b1 b2 b3 rest rfl).elim

theorem imageWords_of_wellFormed {B : List Byte} (h : imageWellFormed B = true) : imageWords B = wordsOfBytes B :=
  if_pos h

theorem imageWords_of_unaligned {B : List Byte} (h : B.length % 4 ≠ 0) : imageWords B = none := by
  simp [imageWords, imageWellFormed, h]

/-- Settles O6: `wordsOfBytes` takes four bytes at a time, and the test of the length is made before it. -/
theorem imageBytesAreBigEndianWords : Obligations.ImageBytesAreBigEndianWords := by
  refine ⟨fun B h4 hmax => ?_, fun B cfg e h4 => ?_⟩
  · obtain ⟨W, hW, hlen, hget⟩ := wordsOfBytes_of_aligned B h4
    refine ⟨W, (imageWords_of_wellFormed (by simp [imageWellFormed, h4, hmax])).trans hW, hlen, fun k hk => ?_⟩
    rw [hget k hk]
    exact toNat_wordOfBytes ..
  · have hnone := imageWords_of_unaligned h4
    exact ⟨hnone, by rw [State.bootImage, hnone]; rfl⟩

end Sys2Proof
end

section
/-! 10_state.md section 9 and 70_reset_and_hazards.md section 1: the state after reset, and its invariant. -/

namespace Sys2Proof.Machine

/-! ## A segment as its words (log entry 1) -/

theorem segment_words_getElem? (g : Segment) (k : Nat) : g.words[k]? = g.read k := by
  by_cases h : k < g.length <;> simp [Segment.words, Segment.read, h]

theorem segment_words_ext {g : Segment} {ws : List Word} (h : ∀ k, g.read k = ws[k]?) : g.words = ws :=
  List.ext_getElem? fun k => (segment_words_getElem? g k).trans (h k)

theorem words_ofWords (ws : List Word) : (Segment.ofWords ws).words = ws :=
  segment_words_ext (segment_read_ofWords ws)

theorem words_zeros (n : Nat) : (Segment.zeros n).words = List.replicate n 0#32 :=
  segment_words_ext fun k => by rw [segment_read_zeros, List.getElem?_replicate]

/-! ## The reset state (10_state.md R41) -/

section
variable (cfg : Config) (e : InputEnv) (W : List Word)

@[simp] theorem boot_segs : (State.boot cfg e W).mem.segs = [.seg (Segment.ofWords W)] := rfl
@[simp] theorem boot_free : (State.boot cfg e W).mem.free = [] := rfl
@[simp] theorem boot_segment_zero : (State.boot cfg e W).mem.segment 0 = some (Segment.ofWords W) := rfl

/-- The table after reset has one entry (20_memory.md R60). -/
theorem boot_segment_of_ne_zero {id : Nat} (h : id ≠ 0) : (State.boot cfg e W).mem.segment id = none := by
  obtain ⟨k, rfl⟩ := Nat.exists_eq_succ_of_ne_zero h
  rfl

theorem boot_read (off : Nat) : (State.boot cfg e W).mem.read 0 off =
    if h : off < W.length then .ok W[off] else .error .offsetFault := by
  rw [memory_read_of_segment (boot_segment_zero cfg e W), ofWords_length]
  by_cases h : off < W.length
  · have hword := (segment_read_eq_some.1 ((segment_read_ofWords W off).trans (List.getElem?_eq_getElem h))).2
    simp [h, hword]
  · simp [h]

theorem boot_reg (r : Reg) : (State.boot cfg e W).reg r = 0#32 := by
  simp [State.boot, State.reg, State.reset]

theorem boot_memInv (hcfg : cfg.wf = true) (hW : W.length ≤ maxImageWords) :
    MemInv cfg.maxIds (State.boot cfg e W).mem where
  wf := by simp [Memory.wf, Slot.wf, ofWords_wf]
  programLive := memory_live_of_segment (boot_segment_zero cfg e W)
  freeNodup := List.nodup_nil
  freeIffTomb := fun id => by simp [List.getElem?_singleton]
  tableBound := (of_decide_eq_true hcfg).1
  lengthBound := fun f hf => by
    obtain rfl := List.mem_singleton.1 hf
    exact hW

theorem boot_stateInv (hcfg : cfg.wf = true) (hW : W.length ≤ maxImageWords) : StateInv (State.boot cfg e W) :=
  (boot_memInv cfg e W hcfg hW).stateInv (s := State.boot cfg e W) hcfg (iff_of_true rfl RunState.noConfusion)
    Bool.noConfusion

end

/-- `State.reset` is reset with the empty image and R7's defaults (log entry 10). -/
theorem reset_eq_boot : State.reset = State.boot Config.default (InputEnv.standard []) [] := rfl

end Sys2Proof.Machine

namespace Sys2Proof

open Machine

/-- Settles O7: segment 0 is `Segment.ofWords W`, whose words are `W`. -/
theorem resetInstallsTheImage : Obligations.ResetInstallsTheImage := fun cfg e W =>
  ⟨⟨Segment.ofWords W, boot_segs cfg e W, words_ofWords W⟩, boot_read cfg e W,
    fun id hid => by rw [Memory.live, boot_segment_of_ne_zero cfg e W hid]; rfl, boot_free cfg e W, rfl, rfl⟩

/-- Settles O9: a host reset is `State.boot` with the state's parameters, and uses nothing else of the state. -/
theorem resetClearsTheRest : Obligations.ResetClearsTheRest := fun s e W =>
  ⟨boot_reg s.cfg e W, rfl, rfl, rfl, rfl, rfl, rfl, fun s' hcfg => by rw [State.hostReset, hcfg, State.hostReset]⟩

/-- Settles O11: the memory after reset is one segment in canonical form, and nothing is asked. -/
theorem bootMeetsTheInvariant : Obligations.BootMeetsTheInvariant := boot_stateInv

/-- Settles O10: `State.reset` is a boot with the empty image. -/
theorem resetMeetsTheInvariant : Obligations.ResetMeetsTheInvariant := by
  rw [Obligations.ResetMeetsTheInvariant, reset_eq_boot]
  exact boot_stateInv _ _ _ (by decide) (Nat.zero_le _)

end Sys2Proof
end

section
/-! 40_execution_cycle.md section 1 and 60_exceptions.md: what a step of a running core can be, and runs. -/

namespace Sys2Proof.Machine

variable {s t : State} {i : Instr} {w : Word} {k : Cause}

/-! ## The step -/

theorem exec_answers_next (i : Instr) (s : State) : ∃ t, exec i s = .next t := by
  rcases completes_or_faults i s with ⟨t, hc⟩ | ⟨k, hk⟩
  · exact ⟨t, exec_of_completes hc⟩
  · exact ⟨s.raise k, exec_of_faults hk⟩

/-- A running core whose segment 0 is not live stops the model (log entry 9). -/
theorem step_of_no_program (hr : s.run = .running) (hdead : s.mem.live 0 = false) :
    step s = .fault .noProgramSegment := by
  rw [step_of_running hr, fetch_noProgram.2 (memory_live_eq_false.1 hdead)]
  rfl

/-- Every other state has a next state. -/
theorem step_answers_next (h : s.run = .running → s.mem.live 0 = true) : ∃ t, step s = .next t := by
  by_cases hr : s.run = .running
  · cases hf : s.fetch with
    | noProgram =>
      have hdead := memory_live_eq_false.2 (fetch_noProgram.1 hf)
      exact absurd (hdead.symm.trans (h hr)) Bool.noConfusion
    | outside => exact ⟨_, step_of_fetch_outside hr hf⟩
    | word w =>
      cases hd : decode w with
      | error e => exact ⟨_, step_of_undefined hr hf hd⟩
      | ok i => rw [step_of_decoded hr hf hd]; exact exec_answers_next i s
  · exact ⟨s, step_of_not_running hr⟩

/-- Taking a fault is the whole of the step's effect (R221; log entry 14). -/
theorem raise_faultTaken (s : State) (k : Cause) : FaultTaken k s (s.raise k) :=
  ⟨raise_run s k, raise_cause s k, raise_reg s k, raise_pc s k, ⟨raise_mem s k, fun _ _ => rfl⟩,
    rfl, rfl, rfl, rfl, rfl⟩

/-- An instruction that faults answers the state of the fault entry. -/
theorem exec_faultTaken (h : Faults i s k) : ∃ t, exec i s = .next t ∧ FaultTaken k s t :=
  ⟨s.raise k, exec_of_faults h, raise_faultTaken s k⟩

/-- An instruction after which the core is not aborted has completed. -/
theorem completes_of_exec (h : exec i s = .next t) (ht : t.run ≠ .aborted) : Completes i s t := by
  rcases exec_next.1 h with hc | ⟨k, -, rfl⟩
  · exact hc
  · exact absurd (raise_run s k) ht

/-- A step of a terminal state leaves it; a step of a running core takes a fault, or the instruction at `(0, pc)`
completes. -/
theorem step_effect (h : step s = .next t) :
    (s.run ≠ .running ∧ t = s) ∨ (∃ k, t = s.raise k) ∨
    ∃ w i, s.mem.read 0 s.pc.toNat = .ok w ∧ decode w = .ok i ∧ Completes i s t := by
  rcases step_cases h with hn | ⟨-, -, rfl⟩ | ⟨-, w, e, -, -, rfl⟩ | ⟨-, w, i, hf, hd, he⟩
  · exact .inl hn
  · exact .inr (.inl ⟨_, rfl⟩)
  · exact .inr (.inl ⟨_, rfl⟩)
  · rcases exec_next.1 he with hc | ⟨k, -, rfl⟩
    · exact .inr (.inr ⟨w, i, fetch_word.1 hf, hd, hc⟩)
    · exact .inr (.inl ⟨k, rfl⟩)

theorem step_effect_of_running (hr : s.run = .running) (h : step s = .next t) :
    (∃ k, t = s.raise k) ∨ ∃ w i, s.mem.read 0 s.pc.toNat = .ok w ∧ decode w = .ok i ∧ Completes i s t :=
  (step_effect h).resolve_left fun hn => hn.1 hr

/-- `IllegalOpcode` is the decoder's own fault: no instruction takes it (R212). -/
theorem faults_ne_illegalOpcode (h : Faults i s k) : k ≠ .illegalOpcode := by
  cases h with
  | sload h =>
    obtain ⟨rfl, -⟩ | ⟨rfl, -⟩ := memory_read_error h <;> exact Cause.noConfusion
  | sstore h =>
    obtain ⟨rfl, -⟩ | ⟨rfl, -⟩ := memory_write_error h <;> exact Cause.noConfusion
  | div _ => exact Cause.noConfusion
  | map h => exact (segMap_error h).1 ▸ Cause.noConfusion
  | unmap h => exact (memory_unmap_error h).1 ▸ Cause.noConfusion
  | load _ h =>
    obtain ⟨-, ⟨rfl, -⟩ | ⟨rfl, -⟩⟩ := segReplaceZero_error h <;> exact Cause.noConfusion

/-! ## Runs -/

/-- A state predicate that every step keeps, from whose states a step always answers next, holds after any number of
steps. -/
theorem run_invariant {P : State → Prop} (hstep : ∀ s, P s → ∃ t, step s = .next t ∧ P t) (k : Nat) (hs : P s) :
    ∃ t, Host.Core.run Sys2Proof.core k s = .next t ∧ P t := by
  induction k generalizing s with
  | zero => exact ⟨s, rfl, hs⟩
  | succ k ih =>
    obtain ⟨u, hu, hPu⟩ := hstep s hs
    obtain ⟨t, ht, hPt⟩ := ih hPu
    exact ⟨t, (run_of_step hu).trans ht, hPt⟩

theorem run_of_not_running (h : s.run ≠ .running) (k : Nat) : Host.Core.run Sys2Proof.core k s = .next s := by
  obtain ⟨t, ht, rfl⟩ := run_invariant (P := (· = s)) (fun u hu => ⟨u, hu ▸ step_of_not_running h, hu⟩) k rfl
  exact ht

theorem StateInv.step_next (h : StateInv s) : ∃ t, step s = .next t := step_answers_next fun _ => h.programLive

theorem step_cfg (h : step s = .next t) : t.cfg = s.cfg := by
  rcases step_effect h with ⟨-, rfl⟩ | ⟨k, rfl⟩ | ⟨w, i, -, -, hc⟩
  · rfl
  · rfl
  · exact completes_cfg hc

end Sys2Proof.Machine

namespace Sys2Proof

open Machine

/-- Settles O13: segment 0 is live in a state that meets the invariant. -/
theorem stepAlwaysAnswersNext : Obligations.StepAlwaysAnswersNext := fun _ => StateInv.step_next

/-- Settles O14: the invariant and the parameters are kept by every step, which the invariant lets answer next. -/
theorem everyRunKeepsTheInvariant : Obligations.EveryRunKeepsTheInvariant := by
  intro cfg e W hcfg hW k
  refine run_invariant (P := fun t => StateInv t ∧ t.cfg = cfg) ?_ k ⟨boot_stateInv cfg e W hcfg hW, rfl⟩
  rintro s ⟨hs, rfl⟩
  obtain ⟨t, ht⟩ := hs.step_next
  exact ⟨t, ht, hs.of_step ht, step_cfg ht⟩

/-- Settles O15: `fetch` is the read at `(0, pc)`. -/
theorem stepRunsTheDecodedInstruction : Obligations.StepRunsTheDecodedInstruction :=
  fun _ _ _ hr hw hd => step_of_decoded hr (fetch_word.2 hw) hd

/-- Settles O16: such a fetch is `outside`. -/
theorem fetchPastTheEndAborts : Obligations.FetchPastTheEndAborts := by
  intro s hr hlive hlen
  obtain ⟨g, hg⟩ := memory_live_iff.1 hlive
  rw [memory_len_of_segment hg] at hlen
  exact ⟨_, step_of_fetch_outside hr (fetch_outside.2 ⟨g, hg, hlen⟩), raise_faultTaken s _⟩

/-- Settles O17: such a word is what `decode` rejects, and no instruction has that cause. -/
theorem undefinedOpcodeAborts : Obligations.UndefinedOpcodeAborts := by
  intro s w hr hcause hw
  cases hd : decode w with
  | error e =>
    exact ⟨_, step_of_undefined hr (fetch_word.2 hw) hd, fun _ => raise_faultTaken s _,
      fun _ => decode_error_iff.1 ⟨e, hd⟩⟩
  | ok i =>
    obtain ⟨t, ht⟩ := exec_answers_next i s
    refine ⟨t, (step_of_decoded hr (fetch_word.2 hw) hd).trans ht, fun hop => ?_, fun hill => ?_⟩
    · obtain ⟨e, he⟩ := decode_error_iff.2 hop
      cases hd.symm.trans he
    · rcases exec_next.1 ht with hc | ⟨k, hk, rfl⟩
      · rw [completes_cause hc, hcause] at hill
        cases hill
      · exact absurd (Option.some.inj hill) (faults_ne_illegalOpcode hk)

/-- Settles O18: the model stops where `step_of_no_program` says, and every other state has a next state. -/
theorem stepStopsOnlyWithoutSegmentZero : Obligations.StepStopsOnlyWithoutSegmentZero := by
  have hstop : ∀ s : State, (s.run = .running ∧ s.mem.live 0 = false) ∨ ∃ t, step s = .next t := fun s => by
    by_cases h : s.run = .running ∧ s.mem.live 0 = false
    · exact .inl h
    · exact .inr (step_answers_next fun hr => Bool.of_not_eq_false fun hdead => h ⟨hr, hdead⟩)
  refine ⟨fun s f => ⟨fun hstep => ?_, fun ⟨hr, hdead, hf⟩ => hf ▸ step_of_no_program hr hdead⟩, fun s r hstep => ?_⟩
  · rcases hstop s with ⟨hr, hdead⟩ | ⟨t, ht⟩
    · rw [step_of_no_program hr hdead] at hstep
      cases hstep
      exact ⟨hr, hdead, rfl⟩
    · cases ht.symm.trans hstep
  · rcases hstop s with ⟨hr, hdead⟩ | ⟨t, ht⟩
    · cases (step_of_no_program hr hdead).symm.trans hstep
    · cases ht.symm.trans hstep

/-- Settles O19: a step of such a state answers that state. -/
theorem terminalStatesStay : Obligations.TerminalStatesStay := fun _ k h => run_of_not_running h k

/-- Settles O20: no completion ends in `Aborted`, so the step took a fault. -/
theorem faultsArePrecise : Obligations.FaultsArePrecise := by
  intro s t hr hstep habort
  rcases step_effect_of_running hr hstep with ⟨k, rfl⟩ | ⟨w, i, -, -, hc⟩
  · exact ⟨k, raise_faultTaken s k⟩
  · exact absurd habort (completes_not_aborted hc hr)

/-- Settles O21: a fault sets both `run` and `cause`, and of the completions only HALT changes `run`. -/
theorem runStateTransitions : Obligations.RunStateTransitions := by
  intro s t hr hcause hstep
  rcases step_effect_of_running hr hstep with ⟨k, rfl⟩ | ⟨w, i, hw, hd, hc⟩
  · refine ⟨⟨RunState.noConfusion, fun ⟨w, hw, hop⟩ => ?_⟩, ⟨fun _ => ⟨k, rfl⟩, fun _ => rfl⟩, RunState.noConfusion⟩
    rw [step_of_opcode_halt hr hw hop] at hstep
    exact absurd (congrArg State.run (Host.Outcome.next.inj hstep)) RunState.noConfusion
  · have hnone : t.cause = none := (completes_cause hc).trans hcause
    refine ⟨?_, ⟨fun ha => absurd ha (completes_not_aborted hc hr), fun ⟨c, hs⟩ => ?_⟩, fun _ => hnone⟩
    · have hrun : t.run = .halted ↔ i = .halt := by
        rw [completes_run hc, hr]
        by_cases hi : i = .halt <;> simp [hi]
      rw [hrun]
      constructor
      · rintro rfl
        exact ⟨w, hw, decode_eq_halt_iff.1 hd⟩
      · rintro ⟨w', hw', hop⟩
        obtain rfl : w = w' := Except.ok.inj (hw.symm.trans hw')
        exact Except.ok.inj (hd.symm.trans (decode_of_opcode_halt hop))
    · cases hnone.symm.trans hs

end Sys2Proof
end

section
/-! 10_state.md sections 2 and 3, 20_memory.md section 1 and 45_io.md: what a completing instruction does to `pc`, the
registers, memory and the channels. -/

namespace Sys2Proof.Machine

variable {s t : State} {i : Instr} {w : Word} {k : Cause}

/-! ## Per part of the state -/

/-- The `pc` after an instruction that completes (10_state.md R26; log entry 6). -/
def NextPc : Instr → State → State → Prop
  | .halt, s, t => t.pc = s.pc
  | .loadprog _ c, s, t => t.pc = s.reg c
  | .inp _, s, t => if s.input.next = none then t.pc = s.pc else PcAdvanced s t
  | _, s, t => PcAdvanced s t

theorem completes_nextPc (h : Completes i s t) : NextPc i s t := by
  cases h with
  | halt => rfl
  | jump _ | load _ _ => rfl
  | inpAnswer h =>
    simp only [NextPc, h]
    exact advance_pc_toNat _
  | inpWait h => simp [NextPc, h]
  | _ => exact advance_pc_toNat _

theorem completes_reg (h : Completes i s t) {r : Reg} (hr : destination i ≠ some r) : t.reg r = s.reg r := by
  cases h with
  | cmovFalse _ | sstore _ | halt | unmap _ | outEmit _ | outSkip _ | inpWait _ | jump _ => rfl
  | cmovTrue _ | sload _ | add | mul | div _ | nand | map _ | inpAnswer _ | load _ _ | loadi =>
    exact reg_setReg_ne _ _ _ fun hq => hr (congrArg some hq.symm)

theorem exec_reg (h : exec i s = .next t) {r : Reg} (hr : destination i ≠ some r) : t.reg r = s.reg r := by
  rcases exec_next.1 h with hc | ⟨k, -, rfl⟩
  · exact completes_reg hc hr
  · rfl

theorem memoryEffect_keep {m : Memory} (h : MemoryEffect s i m) (hi : changesMemory i = false) : m = s.mem := by
  cases h with
  | keep => rfl
  | _ => exact Bool.noConfusion hi

theorem completes_output (h : Completes i s t) : t.output = s.output ∨
    ∃ c, i = .out c ∧ (s.reg c).toNat ≤ 255 ∧ t.output = s.output ++ [(s.reg c).setWidth 8] := by
  cases h with
  | outEmit h => exact .inr ⟨_, rfl, (le_outMax_iff _).1 h, rfl⟩
  | _ => exact .inl rfl

theorem completes_received (h : Completes i s t) : (t.received = s.received ∧ t.input = s.input) ∨
    ∃ c a, i = .inp c ∧ s.input.next = some (a, t.input) ∧ t.received = s.received ++ [a] := by
  cases h with
  | inpAnswer h => exact .inr ⟨_, _, rfl, h, rfl⟩
  | _ => exact .inl ⟨rfl, rfl⟩

/-- An answered IN puts its answer, and a waiting one an open request, after the requests answered before. -/
theorem completes_requests (h : Completes i s t) : t.requests = s.requests ∨
    ∃ c, i = .inp c ∧ t.requests = s.received.map some ++ [s.input.next.map Prod.fst] := by
  cases h with
  | inpAnswer h => exact .inr ⟨_, rfl, by simp [State.requests, h]⟩
  | inpWait h => exact .inr ⟨_, rfl, by simp [State.requests, h]⟩
  | _ => exact .inl rfl

theorem length_requests (s : State) : s.requests.length = s.received.length + if s.asking then 1 else 0 := by
  cases h : s.asking <;> simp [State.requests, h]

/-! ## The input environment (40_execution_cycle.md R129) -/

theorem completes_withInput (h : Completes i s t) (hi : ∀ c, i ≠ .inp c) (e : InputEnv) :
    Completes i (s.withInput e) (t.withInput e) := by
  cases h with
  | inpAnswer _ | inpWait _ => exact absurd rfl (hi _)
  | cmovTrue h => exact .cmovTrue h
  | cmovFalse h => exact .cmovFalse h
  | sload h => exact .sload h
  | sstore h => exact .sstore h
  | add => exact .add
  | mul => exact .mul
  | div h => exact .div h
  | nand => exact .nand
  | halt => exact .halt
  | map h => exact .map h
  | unmap h => exact .unmap h
  | outEmit h => exact .outEmit h
  | outSkip h => exact .outSkip h
  | jump h => exact .jump h
  | load h0 h => exact .load h0 h
  | loadi => exact .loadi

theorem faults_withInput (h : Faults i s k) (e : InputEnv) : Faults i (s.withInput e) k := by
  cases h with
  | sload h => exact .sload h
  | sstore h => exact .sstore h
  | div h => exact .div h
  | map h => exact .map h
  | unmap h => exact .unmap h
  | load h0 h => exact .load h0 h

/-- An instruction other than IN gives the same next state, but for the environment, whatever the environment. -/
theorem exec_withInput (h : exec i s = .next t) (hi : ∀ c, i ≠ .inp c) (e : InputEnv) :
    exec i (s.withInput e) = .next (t.withInput e) := by
  rcases exec_next.1 h with hc | ⟨k, hk, rfl⟩
  · exact exec_of_completes (completes_withInput hc hi e)
  · exact exec_of_faults (faults_withInput hk e)

/-- The fetch does not read the environment, so with no IN fetched the step is the same but for it. -/
theorem step_withInput (h : step s = .next t) (hin : ∀ w c, s.fetch = .word w → decode w ≠ .ok (.inp c))
    (e : InputEnv) : step (s.withInput e) = .next (t.withInput e) := by
  have hfetch : (s.withInput e).fetch = s.fetch := rfl
  rcases step_cases h with ⟨hr, rfl⟩ | ⟨hr, hf, rfl⟩ | ⟨hr, w, d, hf, hd, rfl⟩ | ⟨hr, w, i, hf, hd, he⟩
  · exact step_of_not_running (s := t.withInput e) hr
  · exact step_of_fetch_outside (s := s.withInput e) hr (hfetch.trans hf)
  · exact step_of_undefined (s := s.withInput e) hr (hfetch.trans hf) hd
  · rw [step_of_decoded (s := s.withInput e) hr (hfetch.trans hf) hd]
    exact exec_withInput he (fun c hc => hin w c hf (hc ▸ hd)) e

end Sys2Proof.Machine

namespace Sys2Proof

open Machine

/-- Settles O22: a fault would have aborted, so the instruction completed, with `NextPc`. -/
theorem programCounterAfterEachInstruction : Obligations.ProgramCounterAfterEachInstruction := by
  intro i s t _ hexec hrun
  have hpc := completes_nextPc (completes_of_exec hexec hrun)
  cases i <;> exact hpc

/-- Settles O23: `pc` is below the length of segment 0, which is below 2^32. -/
theorem programCounterNeverWraps : Obligations.ProgramCounterNeverWraps := by
  intro s w hs hw
  obtain ⟨g, hg, hread⟩ := memory_read_eq_ok.1 hw
  have hpc : s.pc.toNat < g.length := (segment_read_eq_some.1 hread).1
  have hlen : g.length ≤ 2 ^ 32 - 1 := hs.lengthBound 0 g hg
  omega

/-- Settles O24: a fault leaves the registers, and a completion writes at most its destination. -/
theorem onlyTheDestinationRegisterChanges : Obligations.OnlyTheDestinationRegisterChanges :=
  fun _ _ _ hexec _ hr => exec_reg hexec hr

/-- Settles O25: the instruction's memory effect is `MemoryEffect.keep`. -/
theorem onlySegmentInstructionsChangeMemory : Obligations.OnlySegmentInstructionsChangeMemory := by
  intro i s t hexec hi
  have hmem : t.mem = s.mem := memoryEffect_keep (exec_memoryEffect hexec) hi
  exact ⟨hmem, fun id off => by rw [hmem]⟩

/-- Settles O26: the only completion that emits is an OUT of a value that fits a byte. -/
theorem outputOnlyGrowsByOut : Obligations.OutputOnlyGrowsByOut := by
  intro s t hstep
  rcases step_effect hstep with ⟨-, rfl⟩ | ⟨k, rfl⟩ | ⟨w, i, hw, hd, hc⟩
  · exact .inl rfl
  · exact .inl rfl
  · rcases completes_output hc with hout | ⟨c, rfl, hle, hout⟩
    · exact .inl hout
    · exact .inr ⟨w, c, _, hw, hd, toNat_lowByte hle, hout⟩

/-- Settles O27: the only completion that takes an answer is an IN. -/
theorem answersAreTakenOnlyByIn : Obligations.AnswersAreTakenOnlyByIn := by
  intro s t hstep
  refine ⟨step_cfg hstep, ?_⟩
  rcases step_effect hstep with ⟨-, rfl⟩ | ⟨k, rfl⟩ | ⟨w, i, hw, hd, hc⟩
  · exact .inl ⟨rfl, rfl⟩
  · exact .inl ⟨rfl, rfl⟩
  · rcases completes_received hc with hsame | ⟨c, a, rfl, hnext, hrec⟩
    · exact .inl hsame
    · exact .inr ⟨w, c, a, hw, hd, hnext, hrec⟩

/-- Settles O28: the requests answered before stand, and the one of this IN follows them. -/
theorem requestsAreMadeOnlyByIn : Obligations.RequestsAreMadeOnlyByIn := by
  intro s t hstep
  rcases step_effect hstep with ⟨-, rfl⟩ | ⟨k, rfl⟩ | ⟨w, i, hw, hd, hc⟩
  · exact .inl rfl
  · exact .inl rfl
  · rcases completes_requests hc with hsame | ⟨c, rfl, hreq⟩
    · exact .inl hsame
    · refine .inr ⟨w, c, hw, hd, ?_, hreq⟩
      rw [hreq, length_requests]
      cases s.asking <;> simp

/-- Settles O29: a step with no IN fetched commutes with replacing the environment. -/
theorem otherStepsDoNotReadTheInput : Obligations.OtherStepsDoNotReadTheInput :=
  fun _ _ e hin hstep => step_withInput hstep (fun w c hf => hin w c (fetch_word.1 hf)) e

end Sys2Proof
end

section
/-! 20_memory.md section 3: what each operation of the segment manager does to every segment, to the free-id stack, to
the table's length and to the number of live words. -/

namespace Sys2Proof.Machine

variable {s : State} {m m' : Memory} {id off n : Nat} {v : Word} {g : Segment} {k : Cause}

/-! ## What stays where a slot is left alone -/

/-- Two memories with the same segment under an id agree on its liveness, its length and every word of it. -/
theorem memory_same_at (h : m'.segment id = m.segment id) :
    m'.live id = m.live id ∧ m'.len id = m.len id ∧ ∀ off, m'.read id off = m.read id off :=
  ⟨by simp [Memory.live, h], by simp [Memory.len, h], memory_read_congr h⟩

theorem segment_append_ne (m : Memory) (e : Slot) (h : id ≠ m.segs.length) :
    ({ m with segs := m.segs ++ [e] } : Memory).segment id = m.segment id := by
  have hget : (m.segs ++ [e])[id]? = m.segs[id]? := by
    rcases Nat.lt_or_gt_of_ne h with hlt | hgt
    · exact List.getElem?_append_left hlt
    · rw [List.getElem?_eq_none (by simpa using hgt), List.getElem?_eq_none (Nat.le_of_lt hgt)]
  simp [Memory.segment, hget]

/-! ## MemWrite (R56) -/

/-- A write replaces one word of one segment. -/
structure WriteEffect (m : Memory) (id off : Nat) (v : Word) (m' : Memory) : Prop where
  shape : ∀ j, m'.live j = m.live j ∧ m'.len j = m.len j
  written : m.wf = true → m'.read id off = .ok v
  others : ∀ j o, (j, o) ≠ (id, off) → m'.read j o = m.read j o
  free : m'.free = m.free
  length : m'.segs.length = m.segs.length

theorem memory_write_effect (h : m.write id off v = .ok m') : WriteEffect m id off v m' := by
  obtain ⟨g, g', hg, hw, rfl⟩ := memory_write_ok h
  obtain ⟨-, hlen, hother, hkeep⟩ := segment_write_spec hw
  have hsame : (m.setSlot id (.seg g')).segment id = some g' :=
    segment_setSlot_same m g' (memory_live_lt (memory_live_of_segment hg))
  have hne : ∀ {j}, j ≠ id → (m.setSlot id (.seg g')).segment j = m.segment j := segment_setSlot_ne m _
  refine ⟨fun j => ?shape, fun hm => ?written, fun j o hjo => ?others, rfl, by simp⟩
  case shape =>
    by_cases hj : j = id
    · subst hj
      exact ⟨by rw [memory_live_of_segment hsame, memory_live_of_segment hg],
        by rw [memory_len_of_segment hsame, memory_len_of_segment hg, hlen]⟩
    · exact ⟨(memory_same_at (hne hj)).1, (memory_same_at (hne hj)).2.1⟩
  case others =>
    by_cases hj : j = id
    · subst hj
      have ho : o ≠ off := fun ho => hjo (by rw [ho])
      simp only [Memory.read, hsame, hg, hother o ho]
    · exact memory_read_congr (hne hj) o
  case written => exact memory_read_eq_ok.2 ⟨g', hsame, (hkeep (segment_wf_of_memory hm hg)).1⟩

theorem memory_write_of_lt (v : Word) (hlive : m.live id = true) (hoff : off < m.len id) :
    ∃ m', m.write id off v = .ok m' := by
  obtain ⟨g, hg⟩ := memory_live_iff.1 hlive
  cases h : m.write id off v with
  | ok m' => exact ⟨m', rfl⟩
  | error c =>
    obtain ⟨-, hnone⟩ | ⟨-, g', hg', hle⟩ := memory_write_error h
    · cases hg.symm.trans hnone
    · exact absurd (memory_len_of_segment hg' ▸ hoff) (Nat.not_lt.2 hle)

/-! ## SegMap (R57) -/

/-- The new segment: an id that was not live, all zero words, no other segment touched, and where the id came from. -/
structure MapEffect (s : State) (n id : Nat) (m : Memory) : Prop where
  ne_zero : id ≠ 0
  fits : id < 2 ^ 32
  fresh : s.mem.live id = false
  segment : m.segment id = some (Segment.zeros n)
  others : ∀ j, j ≠ id → m.segment j = s.mem.segment j
  source : (s.mem.free = id :: m.free ∧ m.segs.length = s.mem.segs.length) ∨
    (s.mem.free = [] ∧ m.free = [] ∧ id = s.mem.segs.length ∧ m.segs.length = s.mem.segs.length + 1)

theorem maxIds_le (h : s.cfg.wf = true) : s.cfg.maxIds ≤ 2 ^ 32 := (of_decide_eq_true h).2

theorem segMap_effect (h : StateInv s) (hm : s.segMap n = .ok (id, m)) : MapEffect s n id m := by
  have htable := h.tableBound
  have hids := maxIds_le h.cfgWf
  obtain ⟨-, ⟨rest, hf, rfl⟩ | ⟨hf, hlt, rfl, rfl⟩⟩ := segMap_ok hm
  case inl =>
    obtain ⟨-, hlt, hne, hdead⟩ := h.memInv.free_top hf
    exact ⟨hne, by omega, hdead, segment_setSlot_same s.mem _ hlt, fun j hj => segment_setSlot_ne s.mem _ hj,
      .inl ⟨hf, by simp⟩⟩
  case inr =>
    have hpos := memory_live_lt h.programLive
    exact ⟨by omega, by omega, memory_live_eq_false.2 (by simp [Memory.segment]),
      memory_segment_eq_some.2 (by simp), fun j hj => segment_append_ne s.mem _ hj, .inr ⟨hf, hf, rfl, by simp⟩⟩

theorem segMap_of_resources (halloc : s.allocOK n = true)
    (hid : s.mem.free ≠ [] ∨ s.mem.segs.length < s.cfg.maxIds) : ∃ id m, s.segMap n = .ok (id, m) := by
  cases h : s.segMap n with
  | ok p => exact ⟨p.1, p.2, rfl⟩
  | error c =>
    obtain ⟨-, hno | ⟨hf, hfull⟩⟩ := segMap_error h
    · exact absurd (hno.symm.trans halloc) Bool.noConfusion
    · exact absurd hid (by simp [hf, hfull])

/-! ## SegUnmap (R58) -/

/-- The slot is a tombstone, its id is on top of the stack, and no other slot is touched. -/
structure UnmapEffect (m : Memory) (id : Nat) (m' : Memory) : Prop where
  tomb : m'.segs[id]? = some .tomb
  free : m'.free = id :: m.free
  length : m'.segs.length = m.segs.length
  dead : m'.segment id = none
  others : ∀ j, j ≠ id → m'.segment j = m.segment j

theorem memory_unmap_effect (h : m.unmap id = .ok m') : UnmapEffect m id m' := by
  obtain ⟨-, hlive, rfl⟩ := memory_unmap_ok h
  have hlt := memory_live_lt hlive
  exact ⟨by simp [hlt], rfl, by simp, segment_setSlot_tomb m id, fun j hj => segment_setSlot_ne m .tomb hj⟩

/-! ## SegReplaceZero (R59) -/

theorem segReplaceZero_others (h : s.segReplaceZero id = .ok m) :
    m.free = s.mem.free ∧ m.segs.length = s.mem.segs.length ∧ ∀ j, j ≠ 0 → m.segment j = s.mem.segment j := by
  obtain ⟨-, rfl⟩ | ⟨-, g, -, -, rfl⟩ := segReplaceZero_ok h
  · exact ⟨rfl, rfl, fun _ _ => rfl⟩
  · exact ⟨rfl, by simp, fun j hj => segment_setSlot_ne s.mem _ hj⟩

/-- Segment 0 is the source's copy: where the table holds a live source, it has a slot 0. -/
theorem segReplaceZero_copy (hid : id ≠ 0) (hg : s.mem.segment id = some g) (h : s.segReplaceZero id = .ok m) :
    m.segment 0 = some g := by
  obtain ⟨h0, -⟩ | ⟨-, g', hg', -, rfl⟩ := segReplaceZero_ok h
  · exact absurd h0 hid
  · obtain rfl : g = g' := Option.some.inj (hg.symm.trans hg')
    exact segment_setSlot_same s.mem g (Nat.zero_lt_of_lt (memory_live_lt (memory_live_of_segment hg)))

/-! ## The number of live words (R61) -/

theorem sum_set_add {l : List Nat} {k x : Nat} (h : l[k]? = some x) (y : Nat) : (l.set k y).sum + x = l.sum + y := by
  obtain ⟨hk, rfl⟩ := List.getElem?_eq_some_iff.1 h
  have hold := List.sum_set l k l[k]
  rw [List.set_getElem_self] at hold
  rw [List.sum_set, hold, if_pos hk, if_pos hk]
  omega

theorem liveWords_eq_sum (m : Memory) : m.liveWords = (m.segs.map slotWords).sum := rfl

/-- Replacing a slot trades its words for the new one's. -/
theorem liveWords_setSlot {e : Slot} (h : m.segs[id]? = some e) (e' : Slot) :
    (m.setSlot id e').liveWords + slotWords e = m.liveWords + slotWords e' := by
  rw [liveWords_eq_sum, liveWords_eq_sum, setSlot_segs, List.map_set]
  exact sum_set_add (by simp [h]) _

theorem allocOK_capacity {bound : Nat} (h : s.cfg.alloc = .capacity bound) :
    s.allocOK n = true ↔ s.mem.liveWords + n ≤ bound := by
  simp [State.allocOK, h]

/-! ## Along a step -/

theorem step_memoryEffect {t : State} (h : step s = .next t) : ∃ i, MemoryEffect s i t.mem := by
  rcases step_effect h with ⟨-, rfl⟩ | ⟨k, rfl⟩ | ⟨w, i, -, -, hc⟩
  · exact ⟨.halt, .keep⟩
  · exact ⟨.halt, .keep⟩
  · exact ⟨i, completes_memoryEffect hc⟩

variable {i : Instr}

theorem MemoryEffect.length_le (h : StateInv s) (he : MemoryEffect s i m) : s.mem.segs.length ≤ m.segs.length := by
  cases he with
  | keep => exact Nat.le_refl _
  | write hw => exact (memory_write_effect hw).length.ge
  | map hm => obtain ⟨-, hlen⟩ | ⟨-, -, -, hlen⟩ := (segMap_effect h hm).source <;> omega
  | unmap hu => exact (memory_unmap_effect hu).length.ge
  | load hr =>
    obtain ⟨-, hlen, -⟩ := segReplaceZero_others hr
    exact hlen.ge

/-- No operation resizes a segment: a write keeps the length, MAP gives a new id, UNMAP ends the life of its id, and the
copy goes to id 0. -/
theorem MemoryEffect.len_eq (h : StateInv s) (he : MemoryEffect s i m) (hid : id ≠ 0) (hs : s.mem.live id = true)
    (ht : m.live id = true) : m.len id = s.mem.len id := by
  cases he with
  | keep => rfl
  | write hw => exact ((memory_write_effect hw).shape id).2
  | @map b c new _ hm =>
    have hmap := segMap_effect h hm
    have hne : id ≠ new := fun heq => Bool.noConfusion (hs.symm.trans (heq ▸ hmap.fresh))
    exact (memory_same_at (hmap.others id hne)).2.1
  | @unmap c _ hu =>
    have hunmap := memory_unmap_effect hu
    have hne : id ≠ s.regNat c := fun heq =>
      Bool.noConfusion (ht.symm.trans (memory_live_eq_false.2 (heq ▸ hunmap.dead)))
    exact (memory_same_at (hunmap.others id hne)).2.1
  | load hr =>
    obtain ⟨-, -, hothers⟩ := segReplaceZero_others hr
    exact (memory_same_at (hothers id hid)).2.1

/-- Under a capacity (R61), what MAP and the copy add has been asked for, and the other operations add no word. -/
theorem MemoryEffect.liveWords_le {bound : Nat} (h : StateInv s) (hcap : s.cfg.alloc = .capacity bound)
    (hs : s.mem.liveWords ≤ bound) (he : MemoryEffect s i m) : m.liveWords ≤ bound := by
  cases he with
  | keep => exact hs
  | write hw =>
    obtain ⟨g, g', hg, hgw, rfl⟩ := memory_write_ok hw
    have htrade := liveWords_setSlot (memory_segment_eq_some.1 hg) (.seg g')
    have hlen := (segment_write_spec hgw).2.1
    simp only [slotWords] at htrade
    omega
  | @map b c _ _ hm =>
    obtain ⟨halloc, hsource⟩ := segMap_ok hm
    have hroom := (allocOK_capacity hcap).1 halloc
    obtain ⟨rest, hf, rfl⟩ | ⟨-, -, -, rfl⟩ := hsource
    · have htrade := liveWords_setSlot (h.memInv.free_top hf).1 (.seg (Segment.zeros (s.regNat c)))
      simp only [slotWords, zeros_length] at htrade
      exact Nat.le_trans (Nat.le_of_eq htrade) hroom
    · simpa [liveWords_eq_sum, slotWords] using hroom
  | unmap hu =>
    obtain ⟨-, hlive, rfl⟩ := memory_unmap_ok hu
    obtain ⟨g, hg⟩ := memory_live_iff.1 hlive
    have htrade := liveWords_setSlot (memory_segment_eq_some.1 hg) .tomb
    exact Nat.le_trans (Nat.le.intro htrade) hs
  | load hr =>
    obtain ⟨-, rfl⟩ | ⟨-, g, -, halloc, rfl⟩ := segReplaceZero_ok hr
    · exact hs
    · obtain ⟨g0, hg0⟩ := memory_live_iff.1 h.programLive
      have hroom := (allocOK_capacity hcap).1 halloc
      have htrade := liveWords_setSlot (memory_segment_eq_some.1 hg0) (.seg g)
      simp only [slotWords] at htrade
      omega

/-- The id MAP gives is the number its destination holds (R57: it is below `MAX_IDS`). -/
theorem MapEffect.toNat_id (h : MapEffect s n id m) : (BitVec.ofNat 32 id).toNat = id := by
  rw [BitVec.toNat_ofNat, Nat.mod_eq_of_lt h.fits]

end Sys2Proof.Machine

namespace Sys2Proof

open Machine

/-- Settles O30: `MemoryEffect.length_le` and `MemoryEffect.len_eq`. -/
theorem tableGrowsAndLengthsStay : Obligations.TableGrowsAndLengthsStay := by
  intro s t hs hstep
  obtain ⟨i, he⟩ := step_memoryEffect hstep
  exact ⟨he.length_le hs, fun id hid hlive hlive' => he.len_eq hs hid hlive hlive'⟩

/-- Settles O31: a MAP that appends has found the stack empty and leaves it so. -/
theorem freeStackChangesOnlyByMapAndUnmap : Obligations.FreeStackChangesOnlyByMapAndUnmap := by
  intro i s t hs hexec
  rcases exec_next.1 hexec with hc | ⟨k, -, rfl⟩
  · cases hc with
    | sstore hw => exact .inl (memory_write_effect hw).free
    | @map b c _ id m hm =>
      have hmap := segMap_effect hs hm
      rcases hmap.source with ⟨hpop, -⟩ | ⟨hempty, hempty', -⟩
      · refine .inr (.inl ⟨b, c, rfl, ?_⟩)
        rw [advance_reg, reg_setReg_same, hmap.toNat_id]
        exact hpop
      · exact .inl (hempty'.trans hempty.symm)
    | unmap hu => exact .inr (.inr ⟨_, rfl, (memory_unmap_effect hu).free⟩)
    | load _ hr => exact .inl (segReplaceZero_others hr).1
    | _ => exact .inl rfl
  · exact .inl rfl

/-- Settles O32: `MemoryEffect.liveWords_le`. -/
theorem capacityIsNeverExceeded : Obligations.CapacityIsNeverExceeded := by
  intro s t bound hs hcap hle hstep
  obtain ⟨i, he⟩ := step_memoryEffect hstep
  exact he.liveWords_le hs hcap hle

end Sys2Proof
end

section
/-! 43_arithmetic_logic.md: DIV, and one register as both sources and the destination. -/

namespace Sys2Proof

theorem decode_of_opcode_div {w : Word} (h : w.toNat / 2 ^ 28 = 5) :
    decode w = .ok (.div (fieldA w) (fieldB w) (fieldC w)) := by
  simp only [decode, toNat_opcode, h]

namespace Machine

theorem toNat_divWord (u v : Word) : (divWord u v).toNat = u.toNat / v.toNat := BitVec.toNat_udiv

/-- The complement of a word, as `x NAND x` gives it (R175). -/
theorem toNat_nandWord_self (u : Word) : (nandWord u u).toNat = 2 ^ 32 - 1 - u.toNat := by
  rw [nandWord, BitVec.and_self, BitVec.toNat_not]

theorem reg_eq_zero_iff {s : State} {r : Reg} : s.reg r = 0#32 ↔ (s.reg r).toNat = 0 := BitVec.toNat_eq

theorem reg_ne_zero_iff {s : State} {r : Reg} : s.reg r ≠ 0#32 ↔ (s.reg r).toNat ≠ 0 := reg_eq_zero_iff.not

end Machine

open Machine

/-- Settles O36: the destination holds `divWord` of the sources, whose number is the quotient (R172). -/
theorem divIsUnsignedFloor : Obligations.DivIsUnsignedFloor := by
  refine ⟨(encodedAs_iff (by decide) _).2 fun _ => decode_of_opcode_div, fun a b c s hc => ?_⟩
  obtain ⟨t, he, hv, hframe⟩ := exec_of_setReg_advance (.div (a := a) (b := b) (reg_ne_zero_iff.2 hc))
  exact ⟨t, he, hv ▸ toNat_divWord (s.reg b) (s.reg c), hframe⟩

/-- Settles O37: DIV completes where the divisor is not 0, and takes the fault where it is. -/
theorem divideByZeroAborts : Obligations.DivideByZeroAborts := by
  intro a b c s hr
  by_cases hc : s.reg c = 0#32
  · have hzero : (s.reg c).toNat = 0 := reg_eq_zero_iff.1 hc
    exact ⟨s.raise .divideByZero, exec_of_faults (.div hc), ⟨fun _ => hzero, fun _ => ⟨rfl, rfl⟩⟩,
      fun _ => ⟨raise_reg s _, run_of_not_running RunState.noConfusion⟩⟩
  · have hnz : (s.reg c).toNat ≠ 0 := reg_ne_zero_iff.1 hc
    have hdone : Completes (.div a b c) s _ := .div hc
    exact ⟨_, exec_of_completes hdone, ⟨fun h => absurd h.1 (completes_not_aborted hdone hr), fun h0 => absurd h0 hnz⟩,
      fun h0 => absurd h0 hnz⟩

/-- Settles O39: each result is that of the operation on the old value twice. -/
theorem sameRegisterIsReadBeforeWritten : Obligations.SameRegisterIsReadBeforeWritten := by
  intro r s
  refine ⟨?add, ?mul, ?nand, fun hr => ?div⟩
  case add =>
    obtain ⟨t, he, hv, -⟩ := exec_of_setReg_advance (.add (a := r) (b := r) (c := r) (s := s))
    exact ⟨t, he, by rw [hv, toNat_addWord, Nat.two_mul]⟩
  case mul =>
    obtain ⟨t, he, hv, -⟩ := exec_of_setReg_advance (.mul (a := r) (b := r) (c := r) (s := s))
    exact ⟨t, he, by rw [hv, toNat_mulWord, Nat.pow_two]⟩
  case nand =>
    obtain ⟨t, he, hv, -⟩ := exec_of_setReg_advance (.nand (a := r) (b := r) (c := r) (s := s))
    exact ⟨t, he, hv ▸ toNat_nandWord_self (s.reg r)⟩
  case div =>
    obtain ⟨t, he, hv, -⟩ := exec_of_setReg_advance (.div (a := r) (b := r) (reg_ne_zero_iff.2 hr))
    exact ⟨t, he, by rw [hv, toNat_divWord, Nat.div_self (Nat.pos_of_ne_zero hr)]⟩

end Sys2Proof
end

section
/-! 42_segment_memory.md: SLOAD, SSTORE, MAP and UNMAP. -/

namespace Sys2Proof

theorem decode_of_opcode_sload {w : Word} (h : w.toNat / 2 ^ 28 = 1) :
    decode w = .ok (.sload (fieldA w) (fieldB w) (fieldC w)) := by
  simp only [decode, toNat_opcode, h]

theorem decode_of_opcode_sstore {w : Word} (h : w.toNat / 2 ^ 28 = 2) :
    decode w = .ok (.sstore (fieldA w) (fieldB w) (fieldC w)) := by
  simp only [decode, toNat_opcode, h]

theorem decode_of_opcode_map {w : Word} (h : w.toNat / 2 ^ 28 = 8) :
    decode w = .ok (.map (fieldB w) (fieldC w)) := by
  simp only [decode, toNat_opcode, h]

theorem decode_of_opcode_unmap {w : Word} (h : w.toNat / 2 ^ 28 = 9) : decode w = .ok (.unmap (fieldC w)) := by
  simp only [decode, toNat_opcode, h]

namespace Machine

variable {s t : State} {m : Memory} {id off n : Nat}

/-! ## Completions of the four instructions -/

/-- The model's shape of an instruction that only replaces memory: the new memory, then `pc + 1`. -/
theorem setMem_advance_onlyMemoryChanged (s : State) (m : Memory) : OnlyMemoryChanged s (s.setMem m).advance :=
  ⟨fun _ => rfl, advance_pc_toNat (s.setMem m), ⟨rfl, rfl⟩, rfl, rfl, rfl, rfl, rfl⟩

theorem completes_sload {a b c : Reg} (h : Completes (.sload a b c) s t) :
    s.mem.read (s.regNat b) (s.regNat c) = .ok (t.reg a) := by
  cases h with
  | sload hread => rwa [advance_reg, reg_setReg_same]

theorem completes_map {b c : Reg} (h : Completes (.map b c) s t) :
    ∃ id, s.segMap (s.regNat c) = .ok (id, t.mem) ∧ t.reg b = BitVec.ofNat 32 id := by
  cases h with
  | map hm => exact ⟨_, hm, reg_setReg_same _ b _⟩

theorem completes_unmap {c : Reg} (h : Completes (.unmap c) s t) : s.mem.unmap (s.regNat c) = .ok t.mem := by
  cases h with
  | unmap hu => exact hu

/-! ## When the segment manager faults (R215 to R218) -/

theorem memory_read_of_dead (h : m.live id = false) (off : Nat) : m.read id off = .error .segmentIdFault := by
  simp [Memory.read, memory_live_eq_false.1 h]

theorem memory_read_of_len_le (hlive : m.live id = true) (hoff : m.len id ≤ off) :
    m.read id off = .error .offsetFault := by
  obtain ⟨g, hg⟩ := memory_live_iff.1 hlive
  rw [memory_len_of_segment hg] at hoff
  rw [memory_read_of_segment hg, if_neg (Nat.not_lt.2 hoff)]

theorem memory_write_of_dead (h : m.live id = false) (off : Nat) (v : Word) :
    m.write id off v = .error .segmentIdFault := by
  simp [Memory.write, memory_live_eq_false.1 h]

theorem memory_write_of_len_le (hlive : m.live id = true) (hoff : m.len id ≤ off) (v : Word) :
    m.write id off v = .error .offsetFault := by
  obtain ⟨g, hg⟩ := memory_live_iff.1 hlive
  rw [memory_len_of_segment hg] at hoff
  simp [Memory.write, hg, segment_write_eq_none.2 hoff]

theorem segMap_of_no_resources
    (h : s.allocOK n = false ∨ (s.mem.free = [] ∧ s.cfg.maxIds ≤ s.mem.segs.length)) :
    s.segMap n = .error .resourceFault := by
  cases hm : s.segMap n with
  | error c => rw [(segMap_error hm).1]
  | ok p =>
    obtain ⟨halloc, hsource⟩ := segMap_ok (id := p.1) (m := p.2) hm
    rcases h with hno | ⟨hf, hfull⟩
    · exact absurd (hno.symm.trans halloc) Bool.noConfusion
    · obtain ⟨rest, hf', -⟩ | ⟨-, hlt, -, -⟩ := hsource
      · cases hf.symm.trans hf'
      · exact absurd hlt (Nat.not_lt.2 hfull)

theorem memory_unmap_of_bad (h : id = 0 ∨ m.live id = false) : m.unmap id = .error .unmapFault := by
  cases hu : m.unmap id with
  | error c => rw [(memory_unmap_error hu).1]
  | ok m' =>
    obtain ⟨hne, hlive, -⟩ := memory_unmap_ok hu
    rcases h with h0 | hdead
    · exact absurd h0 hne
    · exact absurd (hdead.symm.trans hlive) Bool.noConfusion

/-! ## The id of an UNMAP comes back first (R62, R155) -/

theorem segMap_of_free_top {rest : List Nat} {j : Nat} (hf : s.mem.free = id :: rest) (hlt : id < s.mem.segs.length)
    (hm : s.segMap n = .ok (j, m)) : j = id ∧ m.segment id = some (Segment.zeros n) := by
  obtain ⟨-, ⟨rest', hf', rfl⟩ | ⟨hempty, -⟩⟩ := segMap_ok hm
  · obtain ⟨rfl, -⟩ := List.cons.inj (hf.symm.trans hf')
    exact ⟨rfl, segment_setSlot_same s.mem _ hlt⟩
  · cases hf.symm.trans hempty

theorem memory_read_zeros {v : Word} (hg : m.segment id = some (Segment.zeros n)) (hread : m.read id off = .ok v) :
    v = 0#32 := by
  obtain ⟨g, hg', hv⟩ := memory_read_eq_ok.1 hread
  obtain rfl := Option.some.inj (hg.symm.trans hg')
  exact (segment_read_eq_some.1 hv).2.symm

theorem memory_unmap_of_live (hne : id ≠ 0) (hlive : m.live id = true) : ∃ m', m.unmap id = .ok m' :=
  ⟨_, if_pos ⟨hne, hlive⟩⟩

end Machine

open Machine

/-- Settles O40: the read gives that word of the segment (R151). -/
theorem sloadReadsTheAddressedWord : Obligations.SloadReadsTheAddressedWord := by
  refine ⟨(encodedAs_iff (by decide) _).2 fun _ => decode_of_opcode_sload, fun a b c s g hg hoff => ?_⟩
  have hread : g.read (s.regNat c) = some (readCells g.cells (s.regNat c)) := segment_read_eq_some.2 ⟨hoff, rfl⟩
  obtain ⟨t, he, hv, hframe⟩ := exec_of_setReg_advance (.sload (a := a) (memory_read_eq_ok.2 ⟨g, hg, hread⟩))
  exact ⟨t, he, by rw [hv, segment_words_getElem?, hread], hframe⟩

/-- Settles O41: the write's effect on memory is `WriteEffect` (R152, R56). -/
theorem sstoreWritesTheAddressedWord : Obligations.SstoreWritesTheAddressedWord := by
  refine ⟨(encodedAs_iff (by decide) _).2 fun _ => decode_of_opcode_sstore, fun a b c s hs hlive hoff => ?_⟩
  obtain ⟨m, hm⟩ := memory_write_of_lt (s.reg c) hlive hoff
  have hwrite := memory_write_effect hm
  exact ⟨_, exec_of_completes (.sstore hm), hwrite.written hs.memWf, hwrite.others, hwrite.shape, hwrite.free,
    hwrite.length, setMem_advance_onlyMemoryChanged s m⟩

/-- Settles O42: the id is tested before the offset, in reads and in writes. -/
theorem badAddressAborts : Obligations.BadAddressAborts := fun _ _ c s =>
  ⟨fun hdead => exec_faultTaken (.sload (memory_read_of_dead hdead _)),
    fun hlive hoff => exec_faultTaken (.sload (memory_read_of_len_le hlive hoff)),
    fun hdead => exec_faultTaken (.sstore (memory_write_of_dead hdead _ (s.reg c))),
    fun hlive hoff => exec_faultTaken (.sstore (memory_write_of_len_le hlive hoff (s.reg c)))⟩

/-- Settles O43: the effect on memory is `MapEffect`, whose id the destination holds (R153, R57). -/
theorem mapMakesAZeroedSegment : Obligations.MapMakesAZeroedSegment := by
  refine ⟨(encodedAs_iff (by decide) _).2 fun _ => decode_of_opcode_map, fun b c s hs halloc hroom => ?_⟩
  obtain ⟨id, m, hm⟩ := segMap_of_resources halloc hroom
  have hmap := segMap_effect hs hm
  have hreg : (((s.setMem m).setReg b (BitVec.ofNat 32 id)).advance.reg b).toNat = id := by
    rw [advance_reg, reg_setReg_same, hmap.toNat_id]
  refine ⟨_, exec_of_completes (.map hm), ?_⟩
  rw [hreg]
  exact ⟨hmap.source, hmap.ne_zero, hmap.fresh, ⟨_, hmap.segment, words_zeros _⟩,
    fun j hj => memory_same_at (hmap.others j hj), fun _ hq => reg_setReg_ne _ _ _ hq, advance_pc_toNat _, ⟨rfl, rfl⟩,
    rfl, rfl, rfl, rfl, rfl⟩

/-- Settles O44: `SegMap` fails exactly there. -/
theorem mapWithoutResourcesAborts : Obligations.MapWithoutResourcesAborts :=
  fun _ _ _ h => exec_faultTaken (.map (segMap_of_no_resources h))

/-- Settles O45: the effect on memory is `UnmapEffect` (R154, R58). -/
theorem unmapReleasesTheSegment : Obligations.UnmapReleasesTheSegment := by
  refine ⟨(encodedAs_iff (by decide) _).2 fun _ => decode_of_opcode_unmap, fun c s hne hlive => ?_⟩
  obtain ⟨m, hm⟩ := memory_unmap_of_live hne hlive
  have hunmap := memory_unmap_effect hm
  exact ⟨_, exec_of_completes (.unmap hm), hunmap.tomb, hunmap.free, hunmap.length,
    memory_read_of_dead (memory_live_eq_false.2 hunmap.dead), fun j hj => memory_same_at (hunmap.others j hj),
    setMem_advance_onlyMemoryChanged s m⟩

/-- Settles O46: `SegUnmap` refuses both. -/
theorem badUnmapAborts : Obligations.BadUnmapAborts := fun _ _ h => exec_faultTaken (.unmap (memory_unmap_of_bad h))

/-- Settles O47: the UNMAP puts the id on top of the stack, and the second MAP takes it from there. -/
theorem mapAfterUnmapReusesTheIdZeroed : Obligations.MapAfterUnmapReusesTheIdZeroed := by
  intro b c a' b' c' d e f s t u v z _ _ _ _ _ _ hd hunmap hv hmap hz
  have hu := completes_unmap (completes_of_exec hunmap (by simp [hv]))
  obtain ⟨id, hm, hreg⟩ := completes_map (completes_of_exec hmap (by simp [hz]))
  have hfreed := memory_unmap_effect hu
  have hlt : u.regNat d < v.mem.segs.length := by
    obtain ⟨-, hlive, -⟩ := memory_unmap_ok hu
    exact hfreed.length.symm ▸ memory_live_lt hlive
  obtain ⟨rfl, hseg⟩ := segMap_of_free_top hfreed.free hlt hm
  have hsame : z.reg e = u.reg d := by rw [hreg, State.regNat, BitVec.ofNat_toNat, BitVec.setWidth_eq]
  refine ⟨hsame.trans hd, ⟨_, hd ▸ hseg, words_zeros _⟩, fun p q y hload hy => ?_⟩
  have hread := completes_sload (completes_of_exec hload (by simp [hy]))
  rw [State.regNat, hsame] at hread
  exact memory_read_zeros hseg hread

end Sys2Proof
end

section
/-! 44_control.md and 20_memory.md section 7: LOADPROG, and instructions that a step has just written. -/

namespace Sys2Proof

theorem decode_of_opcode_loadprog {w : Word} (h : w.toNat / 2 ^ 28 = 12) :
    decode w = .ok (.loadprog (fieldB w) (fieldC w)) := by
  simp only [decode, toNat_opcode, h]

namespace Machine

variable {s t : State} {id : Nat} {g : Segment}

theorem segReplaceZero_of_alloc (hid : id ≠ 0) (hg : s.mem.segment id = some g) (halloc : s.allocOK g.length = true) :
    ∃ m, s.segReplaceZero id = .ok m :=
  ⟨s.mem.setSlot 0 (.seg g), by simp [State.segReplaceZero, hid, hg, halloc]⟩

theorem segReplaceZero_of_dead (hid : id ≠ 0) (hdead : s.mem.live id = false) :
    s.segReplaceZero id = .error .segmentIdFault := by
  simp [State.segReplaceZero, hid, memory_live_eq_false.1 hdead]

theorem segReplaceZero_of_no_alloc (hid : id ≠ 0) (hlive : s.mem.live id = true)
    (hno : s.allocOK (s.mem.len id) = false) : s.segReplaceZero id = .error .resourceFault := by
  obtain ⟨g, hg⟩ := memory_live_iff.1 hlive
  rw [memory_len_of_segment hg] at hno
  simp [State.segReplaceZero, hid, hg, hno]

/-- A LOADPROG that completes with a live source has copied it and set `pc` (R192). -/
theorem completes_loadprog {b c : Reg} (h : Completes (.loadprog b c) s t) (hb : s.reg b ≠ 0#32)
    (hg : s.mem.segment (s.regNat b) = some g) : t.mem.segment 0 = some g ∧ t.pc = s.reg c := by
  cases h with
  | jump h0 => exact absurd h0 hb
  | load _ hr => exact ⟨segReplaceZero_copy (reg_ne_zero_iff.1 hb) hg hr, rfl⟩

end Machine

open Machine

/-- Settles O49: the test of `x[b]` fails, so only `pc` is set. -/
theorem loadprogJumps : Obligations.LoadprogJumps := fun _ c s hb =>
  ⟨s.setPc (s.reg c), exec_of_completes (.jump (reg_eq_zero_iff.2 hb)), rfl, fun _ => rfl, ⟨rfl, rfl⟩,
    ⟨rfl, fun _ _ => rfl⟩, rfl, rfl, rfl, rfl, rfl⟩

/-- Settles O50: segment 0 is the source's segment, and no other slot is touched (R192, R59). -/
theorem loadprogCopiesTheSource : Obligations.LoadprogCopiesTheSource := by
  refine ⟨(encodedAs_iff (by decide) _).2 fun _ => decode_of_opcode_loadprog, fun b c s hb hlive halloc => ?_⟩
  obtain ⟨g, hg⟩ := memory_live_iff.1 hlive
  rw [memory_len_of_segment hg] at halloc
  obtain ⟨m, hm⟩ := segReplaceZero_of_alloc hb hg halloc
  have hcopy := segReplaceZero_copy hb hg hm
  obtain ⟨hfree, hlen, hothers⟩ := segReplaceZero_others hm
  refine ⟨_, exec_of_completes (.load (reg_ne_zero_iff.2 hb) hm), rfl, ?_, fun _ hq => reg_setReg_ne _ _ _ hq,
    memory_live_of_segment hcopy, ?_, fun off => ?_, fun id hid => memory_same_at (hothers id hid), hfree, hlen,
    ⟨rfl, rfl⟩, rfl, rfl, rfl, rfl, rfl⟩
  · rw [setPc_reg, reg_setReg_same]
    rfl
  · exact (memory_len_of_segment hcopy).trans (memory_len_of_segment hg).symm
  · exact (memory_read_of_segment hcopy off).trans (memory_read_of_segment hg off).symm

/-- Settles O51: `SegReplaceZero` tests the id, then the storage. -/
theorem badLoadprogAborts : Obligations.BadLoadprogAborts := fun _ _ _ hb =>
  ⟨fun hdead => exec_faultTaken (.load (reg_ne_zero_iff.2 hb) (segReplaceZero_of_dead hb hdead)),
    fun hlive hno => exec_faultTaken (.load (reg_ne_zero_iff.2 hb) (segReplaceZero_of_no_alloc hb hlive hno))⟩

/-- Settles O52: the SSTORE completes, its word is at the next `pc`, and `pc + 1` has not wrapped. -/
theorem storeIsSeenByTheNextFetch : Obligations.StoreIsSeenByTheNextFetch := by
  intro a b c s t w i hs hr hw hd haddr hlen hi hstep
  rw [step_of_decoded hr (fetch_word.2 hw) hd] at hstep
  obtain ⟨ha, hb⟩ : s.regNat a = 0 ∧ s.regNat b = s.pc.toNat + 1 := Prod.mk.inj haddr
  obtain ⟨m, hm⟩ := memory_write_of_lt (s.reg c) hs.programLive hlen
  rw [← ha, ← hb] at hm
  rw [exec_of_completes (.sstore hm)] at hstep
  cases hstep
  have hpc : ((s.setMem m).advance).pc.toNat = s.pc.toNat + 1 :=
    (advance_pc_toNat _).trans (Nat.mod_eq_of_lt (programCounterNeverWraps s w hs hw))
  have hread := (memory_write_effect hm).written hs.memWf
  rw [ha, hb, ← hpc] at hread
  exact step_of_decoded (s := (s.setMem m).advance) hr (fetch_word.2 hread) hi

/-- Settles O53: segment 0 is the source and `pc` is the old `x[c]`, so the next fetch is the source's word there. -/
theorem loadedProgramRunsNext : Obligations.LoadedProgramRunsNext := by
  intro b c s t g _ hb hg hexec ht
  obtain ⟨hseg, hpc⟩ :=
    completes_loadprog (completes_of_exec hexec (by simp [ht])) (reg_ne_zero_iff.2 hb) hg
  have hword : g.words[s.regNat c]? = g.read t.pc.toNat := by rw [segment_words_getElem?, hpc, State.regNat]
  rw [hword]
  refine ⟨fun w i hw hd => ?_, fun hnone => ?_⟩
  · exact step_of_decoded ht (fetch_word.2 (memory_read_eq_ok.2 ⟨g, hseg, hw⟩)) hd
  · exact ⟨_, step_of_fetch_outside ht (fetch_outside.2 ⟨g, hseg, segment_read_eq_none.1 hnone⟩),
      raise_faultTaken t _⟩

end Sys2Proof
end

section
/-! 45_io.md opcode 11 and 60_exceptions.md section 6: IN, and what the host derives from the run state. -/

namespace Sys2Proof

theorem decode_of_opcode_inp {w : Word} (h : w.toNat / 2 ^ 28 = 11) : decode w = .ok (.inp (fieldC w)) := by
  simp only [decode, toNat_opcode, h]

namespace Machine

variable {s t : State} {e : InputEnv} {a : Answer}

/-- A byte is zero-extended (R201). -/
theorem toNat_zextByte (b : Byte) : (zextByte b).toNat = b.toNat := BitVec.toNat_setWidth_of_le (by decide)

/-- The next answer is the first of the list, or the standing answer where the list is empty (R204; log entry 5). -/
theorem input_next_of_answer (h : e.answers.head? = some a ∨ (e.answers = [] ∧ e.thereafter = some a)) :
    ∃ e', e.next = some (a, e') ∧ e'.answers = e.answers.tail ∧ e'.thereafter = e.thereafter := by
  rcases h with hhead | ⟨hempty, hlater⟩
  · obtain ⟨rest, hrest⟩ := List.head?_eq_some_iff.1 hhead
    exact ⟨{ e with answers := rest }, by simp [InputEnv.next, hrest], by rw [hrest]; rfl, rfl⟩
  · exact ⟨e, by simp [InputEnv.next, hempty, hlater], by rw [hempty]; rfl, rfl⟩

/-- The host's one answer to a core that waits is the next, and after it the environment is as it was. -/
theorem hostAnswers_input_next (h : s.input.next = none) (a : Answer) :
    (s.hostAnswers a).input.next = some (a, s.input) := by
  obtain ⟨hempty, -⟩ := input_next_none.1 h
  have hsame : ({ s.input with answers := [] } : InputEnv) = s.input := by rw [← hempty]
  simp [State.hostAnswers, InputEnv.next, hempty, hsame]

theorem ask_onlyAsked (s : State) : OnlyAsked s s.ask :=
  ⟨rfl, fun _ => rfl, rfl, ⟨rfl, rfl⟩, ⟨rfl, fun _ _ => rfl⟩, rfl, rfl, rfl, rfl⟩

theorem step_of_waiting (h : Waiting s) : step s = .next s.ask := by
  obtain ⟨hr, hnone, w, c, hw, hd⟩ := h
  exact (step_of_decoded hr (fetch_word.2 hw) hd).trans (exec_of_completes (.inpWait hnone))

/-- Asking changes nothing that waiting depends on. -/
theorem ask_waiting (h : Waiting s) : Waiting s.ask := h

end Machine

open Machine

/-- Settles O55: IN takes the host's next answer and writes its value (R201). -/
theorem inWritesTheHostsAnswer : Obligations.InWritesTheHostsAnswer := by
  refine ⟨(encodedAs_iff (by decide) _).2 fun _ => decode_of_opcode_inp, fun c s a ha => ?_⟩
  obtain ⟨e, hnext, hanswers, hlater⟩ := input_next_of_answer ha
  have hreg : (((s.take a e).setReg c (answerWord a)).advance).reg c = answerWord a := reg_setReg_same _ c _
  refine ⟨_, exec_of_completes (.inpAnswer hnext), fun b hb => ?_, fun heos => ?_, rfl, hanswers, hlater,
    fun _ hq => reg_setReg_ne _ _ _ hq, advance_pc_toNat _, ⟨rfl, rfl⟩, ⟨rfl, fun _ _ => rfl⟩, rfl, rfl, rfl⟩
  · rw [hreg, hb]
    exact toNat_zextByte b
  · rw [hreg, heos]
    rfl

/-- Settles O56: a wait only asks, a second one finds the request made, and the host's answer completes the IN. -/
theorem inWaitsForTheHost : Obligations.InWaitsForTheHost := by
  intro s hwait
  refine ⟨s.ask, step_of_waiting hwait, ask_onlyAsked s, ask_of_asking s, ?_, fun w c a hw hd => ?_⟩
  · rw [step_of_waiting (ask_waiting hwait), ask_ask]
  · obtain ⟨hr, hnone, -⟩ := hwait
    have hnext : (s.ask.hostAnswers a).input.next = some (a, s.input) := hostAnswers_input_next (s := s.ask) hnone a
    have hstep := step_of_decoded (s := s.ask.hostAnswers a) hr (fetch_word.2 hw) hd
    exact ⟨_, hstep.trans (exec_of_completes (.inpAnswer hnext)), reg_setReg_same _ c _,
      fun _ hq => reg_setReg_ne _ _ _ hq, advance_pc_toNat _, rfl, rfl, rfl, ⟨rfl, rfl⟩, ⟨rfl, fun _ _ => rfl⟩,
      rfl, rfl⟩

/-- Settles O57: the three run states, and a cause is set exactly in `Aborted` (R228, R32). -/
theorem exitStatusFollowsTheRunState : Obligations.ExitStatusFollowsTheRunState := by
  intro s hs
  have hcause := hs.causeIff
  cases hr : s.run with
  | running => simp [State.exitStatus, State.status, hr]
  | halted => simp [State.exitStatus, State.status, hr]
  | aborted =>
    obtain ⟨c, hc⟩ : ∃ c, s.cause = some c := Option.ne_none_iff_exists'.1 fun h => hcause.1 h hr
    simp [State.exitStatus, State.status, hr, hc, Config.abortStatus]

end Sys2Proof
end
